-- ==== Sys2Proof/Word.lean ====
section
/-! DEFINITION. The word types of sync_fifo_core (00_scope R6, R8) and the two plain records that cross a port.
Nothing in this hardware is signed; `+` and `-` on these words wrap, which is the spec's `+w` and `-w`. -/

namespace Sys2Proof

/-- A byte: the unit of storage and of transfer (R6; the width is the spec's own supply, 93 G1; log 13). -/
abbrev Byte := BitVec 8

/-- SEQ_WIDTH and LEN_WIDTH: counters, capacity, sizes, lengths and counts (R6). -/
abbrev U32 := BitVec 32

/-- CMD_WIDTH and RSP_WIDTH: a command or response word (R6). -/
abbrev U64 := BitVec 64

/-- What a port's request channel carries (10_state R20): a command word, with a WRITE word its payload (R62). -/
structure Request where
  word : U64
  payload : List Byte
  deriving DecidableEq, Repr

/-- What a port's response channel carries (10_state R20): a response word, with a READ response its data (R63). -/
structure Response where
  word : U64
  data : List Byte
  deriving DecidableEq, Repr

end Sys2Proof
end

