-- ==== Sys2Proof/Config.lean ====
section
/-! DEFINITION. What is fixed for the block: its three agents, the names of its registers and fault causes, and
the free values that the spec leaves open. MAX_CAPACITY, the one OPEN parameter, is the constant field
`maxLog2` of State (log 1). -/

namespace Sys2Proof

/-- The three agents, each with its port (00_scope R7). -/
inductive Port where
  | ctl
  | prod
  | cons
  deriving DecidableEq, Repr

/-- The registers that RDREG reads, in index order 0x00 to 0x09 (10_state R24). -/
inductive Reg where
  | status
  | capacity
  | readSeq
  | writeSeq
  | level
  | free
  | faultCause
  | faultCmdLo
  | faultCmdHi
  | maxCapacity
  deriving DecidableEq, Repr

/-- The fault causes of 60_exceptions R83, in code order 0x00 to 0x0A. -/
inductive Cause where
  | none
  | illegalOpcode
  | wrongPort
  | reservedField
  | badReg
  | badPayload
  | notConfigured
  | createActive
  | destroyBusy
  | badSize
  | allocFail
  deriving DecidableEq, Repr

/-- FREE VALUE. The byte that draw number `d` puts at the physical offset `o` (00_scope R11, 10_state R29, 71's
`draw()`). No body: nothing can be proved of it (log 6). -/
opaque Config.storageDraw (d o : Nat) : Byte

/-- FREE VALUE. Which of several enabled agents takes the step numbered `t` when no schedule is given
(00_scope R10, 93 U15). No body: nothing can be proved of it (log 2). -/
opaque Config.agentChoice (t : Nat) : Nat

end Sys2Proof
end

