-- ==== Sys2Proof/Syntax.lean ====
section
/-! DEFINITION. The commands: one constructor per row of spec/opcode_table.json, with the operands the row names. -/

namespace Sys2Proof

/-- A decoded command. ARG is `size` or `len` (30_encoding R58), REG is a register (R57), AP is part of the
constructor's name (R56, `.ALL` 0 and `.PART` 1), and a WRITE carries its payload `src` (R62). -/
inductive Instr where
  /-- CREATE size (40_lifecycle R69) -/
  | create (size : U32)
  /-- DESTROY (40_lifecycle R71) -/
  | destroy
  /-- WRITE.ALL len, src (42_write R76) -/
  | writeAll (len : U32) (src : List Byte)
  /-- WRITE.PART len, src (42_write R76) -/
  | writePart (len : U32) (src : List Byte)
  /-- READ.ALL len (41_read R72) -/
  | readAll (len : U32)
  /-- READ.PART len (41_read R72) -/
  | readPart (len : U32)
  /-- RDREG index (43_register_access R80) -/
  | rdreg (reg : Reg)
  deriving DecidableEq, Repr

end Sys2Proof
end

