-- ==== Sys2Proof/WellFormed.lean ====
section
/-! DEFINITION. When a command is one the decoder can give. Sizes and lengths are any u32 (30_encoding R58) and a
`Reg` is a defined register, so the one check is R62's: a WRITE's payload has exactly `len` bytes. -/

namespace Sys2Proof

/-- `|src| = ARG` (30_encoding R62). -/
def payloadFits (len : U32) (src : List Byte) : Bool :=
  src.length == len.toNat

/-- A well-formed command. -/
def Instr.wellFormed : Instr → Bool
  | .create _ => true
  | .destroy => true
  | .writeAll len src => payloadFits len src
  | .writePart len src => payloadFits len src
  | .readAll _ => true
  | .readPart _ => true
  | .rdreg _ => true

end Sys2Proof
end

