-- ==== Sys2Proof/Decode.lean ====
section
/-! DEFINITION. Command and response words (spec/30_encoding.md): the numbers of ports, registers and causes, the
fields of a command word, the decoder of R64, the encoder from the same tables, and the byte order of R66. -/

namespace Sys2Proof

/-! ### Numbers of the named things -/

/-- The port id (00_scope R7). -/
def Port.id : Port → BitVec 2
  | .ctl => 0#2
  | .prod => 1#2
  | .cons => 2#2

/-- The cause code (60_exceptions R83). -/
def Cause.code : Cause → BitVec 8
  | .none => 0x00#8
  | .illegalOpcode => 0x01#8
  | .wrongPort => 0x02#8
  | .reservedField => 0x03#8
  | .badReg => 0x04#8
  | .badPayload => 0x05#8
  | .notConfigured => 0x06#8
  | .createActive => 0x07#8
  | .destroyBusy => 0x08#8
  | .badSize => 0x09#8
  | .allocFail => 0x0A#8

/-- The register index (10_state R24). -/
def Reg.index : Reg → BitVec 8
  | .status => 0x00#8
  | .capacity => 0x01#8
  | .readSeq => 0x02#8
  | .writeSeq => 0x03#8
  | .level => 0x04#8
  | .free => 0x05#8
  | .faultCause => 0x06#8
  | .faultCmdLo => 0x07#8
  | .faultCmdHi => 0x08#8
  | .maxCapacity => 0x09#8

/-- The register of an index; none above 0x09 (10_state R24, 30_encoding R57). -/
def Reg.ofIndex? (x : BitVec 8) : Option Reg :=
  match x.toNat with
  | 0 => some .status
  | 1 => some .capacity
  | 2 => some .readSeq
  | 3 => some .writeSeq
  | 4 => some .level
  | 5 => some .free
  | 6 => some .faultCause
  | 7 => some .faultCmdLo
  | 8 => some .faultCmdHi
  | 9 => some .maxCapacity
  | _ => none

/-! ### Fields of a command word (R54) -/

/-- OPC, bits 3:0. -/
def opcField (c : U64) : BitVec 4 := c.extractLsb' 0 4
/-- AP, bit 4. -/
def apField (c : U64) : BitVec 1 := c.extractLsb' 4 1
/-- Reserved, bits 15:5. -/
def rsvLowField (c : U64) : BitVec 11 := c.extractLsb' 5 11
/-- REG, bits 23:16. -/
def regField (c : U64) : BitVec 8 := c.extractLsb' 16 8
/-- Reserved, bits 31:24. -/
def rsvHighField (c : U64) : BitVec 8 := c.extractLsb' 24 8
/-- ARG, bits 63:32. -/
def argField (c : U64) : U32 := c.extractLsb' 32 32

/-- The word with these fields and every reserved bit 0 (R54). -/
def commandWord (arg : U32) (reg : BitVec 8) (ap : BitVec 1) (opc : BitVec 4) : U64 :=
  arg ++ 0#8 ++ reg ++ 0#11 ++ ap ++ opc

/-! ### Opcodes (R55) -/

/-- The defined opcodes. -/
inductive Opcode where
  | create
  | destroy
  | write
  | read
  | rdreg
  deriving DecidableEq, Repr

/-- R55's map, with 0x0 and 0x6 to 0xF reserved (R60). -/
def opcodeOf? (x : BitVec 4) : Option Opcode :=
  match x.toNat with
  | 1 => some .create
  | 2 => some .destroy
  | 3 => some .write
  | 4 => some .read
  | 5 => some .rdreg
  | _ => none

/-- OPC of an opcode (R55). -/
def opcodeBits : Opcode → BitVec 4
  | .create => 0x1#4
  | .destroy => 0x2#4
  | .write => 0x3#4
  | .read => 0x4#4
  | .rdreg => 0x5#4

/-- The port an opcode is bound to (R55, R61). -/
def opcodePort : Opcode → Port
  | .create => .ctl
  | .destroy => .ctl
  | .write => .prod
  | .read => .cons
  | .rdreg => .ctl

/-- Only READ and WRITE have an AP bit (R56). -/
def usesAp : Opcode → Bool
  | .create => false
  | .destroy => false
  | .write => true
  | .read => true
  | .rdreg => false

/-- Only RDREG has a register index (R57). -/
def usesReg : Opcode → Bool
  | .create => false
  | .destroy => false
  | .write => false
  | .read => false
  | .rdreg => true

/-- DESTROY and RDREG have no ARG (R58). -/
def usesArg : Opcode → Bool
  | .create => true
  | .destroy => false
  | .write => true
  | .read => true
  | .rdreg => false

/-- A 1 in a reserved bit, or in a field the opcode does not use (R59). -/
def reservedSet (op : Opcode) (c : U64) : Bool :=
  rsvLowField c != 0#11 || rsvHighField c != 0#8
    || (!usesAp op && apField c != 0#1)
    || (!usesReg op && regField c != 0#8)
    || (!usesArg op && argField c != 0#32)

/-! ### Decoder (R64) -/

/-- The last checks of R64 and the command itself, once the opcode, the port and the reserved fields have passed. -/
def decodeOperands (op : Opcode) (r : Request) : Except Cause Instr :=
  match op with
  | .create => .ok (.create (argField r.word))
  | .destroy => .ok .destroy
  | .write =>
    if payloadFits (argField r.word) r.payload then
      .ok (if apField r.word = 0#1 then .writeAll (argField r.word) r.payload
        else .writePart (argField r.word) r.payload)
    else .error .badPayload
  | .read =>
    .ok (if apField r.word = 0#1 then .readAll (argField r.word) else .readPart (argField r.word))
  | .rdreg =>
    match Reg.ofIndex? (regField r.word) with
    | none => .error .badReg
    | some reg => .ok (.rdreg reg)

/-- R64: the command that request `r` is on port `p`, or the first cause that applies. Total on any word. -/
def decode (p : Port) (r : Request) : Except Cause Instr :=
  match opcodeOf? (opcField r.word) with
  | none => .error .illegalOpcode
  | some op =>
    if opcodePort op ≠ p then .error .wrongPort
    else if reservedSet op r.word then .error .reservedField
    else decodeOperands op r

/-! ### Encoder -/

/-- The opcode of a command (R55). -/
def Instr.opcode : Instr → Opcode
  | .create _ => .create
  | .destroy => .destroy
  | .writeAll _ _ => .write
  | .writePart _ _ => .write
  | .readAll _ => .read
  | .readPart _ => .read
  | .rdreg _ => .rdreg

/-- The port a command is bound to (R55, R61). -/
def Instr.port (i : Instr) : Port := opcodePort i.opcode

/-- The command word of a command (R54 to R58, the encoding line of its own rule). -/
def encodeWord : Instr → U64
  | .create size => commandWord size 0#8 0#1 (opcodeBits .create)
  | .destroy => commandWord 0#32 0#8 0#1 (opcodeBits .destroy)
  | .writeAll len _ => commandWord len 0#8 0#1 (opcodeBits .write)
  | .writePart len _ => commandWord len 0#8 1#1 (opcodeBits .write)
  | .readAll len => commandWord len 0#8 0#1 (opcodeBits .read)
  | .readPart len => commandWord len 0#8 1#1 (opcodeBits .read)
  | .rdreg reg => commandWord 0#32 reg.index 0#1 (opcodeBits .rdreg)

/-- The payload of a command: only a WRITE has one (R62). -/
def Instr.payload : Instr → List Byte
  | .create _ => []
  | .destroy => []
  | .writeAll _ src => src
  | .writePart _ src => src
  | .readAll _ => []
  | .readPart _ => []
  | .rdreg _ => []

/-- The request that carries a command. -/
def encode (i : Instr) : Request := ⟨encodeWord i, i.payload⟩

/-! ### Byte order (R66) -/

/-- A word over a byte-wide path: byte `j` is `word[8j+7 : 8j]`, byte 0 first. -/
def wordBytes (w : U64) : List Byte :=
  [w.extractLsb' 0 8, w.extractLsb' 8 8, w.extractLsb' 16 8, w.extractLsb' 24 8,
    w.extractLsb' 32 8, w.extractLsb' 40 8, w.extractLsb' 48 8, w.extractLsb' 56 8]

/-- A command word, then its payload in payload order. -/
def requestBytes (r : Request) : List Byte := wordBytes r.word ++ r.payload

/-- A response word, then its data in data order. -/
def responseBytes (r : Response) : List Byte := wordBytes r.word ++ r.data

/-- The request a byte sequence carries: eight bytes of word, the rest payload; none when shorter than a word. -/
def parseRequest : List Byte → Option Request
  | b0 :: b1 :: b2 :: b3 :: b4 :: b5 :: b6 :: b7 :: rest =>
    some ⟨b7 ++ b6 ++ b5 ++ b4 ++ b3 ++ b2 ++ b1 ++ b0, rest⟩
  | _ => none

/-! ### The opcode table's numbering -/

/-- The port that offers a word: its opcode's, or CTL when the opcode is reserved. -/
def portOfWord (c : U64) : Port :=
  match opcodeOf? (opcField c) with
  | some op => opcodePort op
  | none => .ctl

/-- The bytes of the table's word `w`, with the operand bytes of a WRITE (its `ARG` payload bytes) all 0. -/
def tableBytes (nbits w : Nat) : List Byte :=
  let c : U64 := BitVec.ofNat 64 (w % 2 ^ nbits)
  wordBytes c ++
    (if opcodeOf? (opcField c) = some .write then List.replicate (argField c).toNat 0#8 else [])

/-- The request of the table's word `w`. -/
def tableRequest (nbits w : Nat) : Request :=
  (parseRequest (tableBytes nbits w)).getD ⟨0#64, []⟩

/-- The command the decoder reads from the table's word `w`, on the port the word's opcode is bound to. -/
def decodeTableWord (nbits w : Nat) : Option Instr :=
  match decode (portOfWord (tableRequest nbits w).word) (tableRequest nbits w) with
  | .ok i => some i
  | .error _ => none

end Sys2Proof
end

