-- ==== Sys2Proof/Machine/State.lean ====
section
/-! DEFINITION. The machine's state as plain data (spec/10_state.md), its outcomes, and the state after reset (R30).
Everything R12 to R24 and R30 name is here; INVENTORY.md lists each field with its rule. -/

namespace Sys2Proof.Machine

/-- STATE (R12). The 2-bit code 3 is never produced, so it has no name here (log 9). -/
inductive Life where
  | unconfigured
  | active
  | faulted
  deriving DecidableEq, Repr

/-- A transfer port's phase (R21, R22): the next step of the transfer in flight. Code 3 is never used (log 9). -/
inductive Phase where
  | idle
  | copy
  | pub
  deriving DecidableEq, Repr

/-- One port: its program and command pointer (R19), and the responses it has sent, oldest first (R20; log 3, 5). -/
structure PortIo where
  program : List Request
  cp : Nat
  responses : List Response
  deriving DecidableEq, Repr

/-- PROD's port-local registers (R21). -/
structure ProdRegs where
  phase : Phase
  len : U32
  ap : Bool
  payload : List Byte
  base : U32
  peer : U32
  n : U32
  deriving DecidableEq, Repr

/-- CONS's port-local registers (R22). -/
structure ConsRegs where
  phase : Phase
  len : U32
  ap : Bool
  base : U32
  peer : U32
  n : U32
  data : List Byte
  deriving DecidableEq, Repr

/-- The machine state (00_scope R10: "the tuple of all state in 10_state.md"). -/
structure State where
  /-- STATE (R12) -/
  state : Life
  /-- capacity (R13) -/
  capacity : U32
  /-- read_seq (R14) -/
  readSeq : U32
  /-- write_seq (R15) -/
  writeSeq : U32
  /-- storage (R17): the bytes below `capacity` that are not 0, offsets strictly rising (log 6) -/
  storage : List Host.Cell
  /-- PROD's registers (R21) -/
  prod : ProdRegs
  /-- CONS's registers (R22) -/
  cons : ConsRegs
  /-- fault_cause (R23) -/
  faultCause : Cause
  /-- fault_port (R23) -/
  faultPort : Port
  /-- fault_cmd (R23) -/
  faultCmd : U64
  /-- the CTL port (R19, R20) -/
  ctlIo : PortIo
  /-- the PROD port (R19, R20) -/
  prodIo : PortIo
  /-- the CONS port (R19, R20) -/
  consIo : PortIo
  /-- MAX_CAPACITY = 2 ^ maxLog2, constant (00_scope R6, R24 index 0x09; log 1) -/
  maxLog2 : Fin 32
  /-- the model's own: which agents take the next steps, as far as that is given (log 2) -/
  sched : List Port
  /-- the model's own: the number of the next step, argument of the free choice of agent (log 2) -/
  ticks : Nat
  /-- the model's own: the number of the current draw of unspecified storage bytes (log 6) -/
  draws : Nat
  deriving DecidableEq, Repr

/-- Why a step gives no next state. The FAULTED state of the spec is none of these: entering it is a next state. -/
inductive Fault where
  /-- Raised by `step` in a final state: every program is done and nothing faulted (70 R111). Safe. -/
  | runEnded
  /-- Raised by `step` in a stuck state: no agent has an enabled step and the state is not final (70 R111). Safe. -/
  | stuck
  /-- Raised by a COPY or PUB asked of a FAULTED machine, where neither is enabled (60 R87). `step` never asks it. Safe. -/
  | frozen
  /-- Raised by MemRead and MemWrite at an offset of `capacity` or more, which does not exist (20 R33). No reachable
  state does it. Safe. -/
  | storageOutOfRange
  /-- Raised by WRITE's COPY when PROD.payload has fewer than PROD.n bytes, which R62's check rules out. No reachable
  state does it. Safe. -/
  | payloadTooShort
  deriving DecidableEq, Repr

/-- No instruction of this model is refused. -/
inductive Refusal where
  /-- An instruction that has no meaning yet, by its mnemonic; raised by `exec`'s arms only, of which none does. Safe. -/
  | notModelled (mnemonic : String)
  deriving DecidableEq, Repr

/-- The outcome of a meaning or a step. -/
abbrev Result := Host.Outcome State Fault Refusal

/-- A port after reset: command pointer 0 and channels empty (R30); no program is loaded (log 3). -/
def PortIo.reset : PortIo := ⟨[], 0, []⟩

/-- PROD's registers after reset (R21, R30). -/
def ProdRegs.reset : ProdRegs := ⟨.idle, 0#32, false, [], 0#32, 0#32, 0#32⟩

/-- CONS's registers after reset (R22, R30). -/
def ConsRegs.reset : ConsRegs := ⟨.idle, 0#32, false, 0#32, 0#32, 0#32, []⟩

/-- The state after reset of the block whose MAX_CAPACITY is `2 ^ k` (R30, 70 R100). -/
def State.resetWith (k : Fin 32) : State where
  state := .unconfigured
  capacity := 0#32
  readSeq := 0#32
  writeSeq := 0#32
  storage := []
  prod := ProdRegs.reset
  cons := ConsRegs.reset
  faultCause := .none
  faultPort := .ctl
  faultCmd := 0#64
  ctlIo := PortIo.reset
  prodIo := PortIo.reset
  consIo := PortIo.reset
  maxLog2 := k
  sched := []
  ticks := 0
  draws := 0

/-- The state after reset, with MAX_CAPACITY = 2^31 (DESIGN CHOICE, log 1: D7 leaves the parameter OPEN). -/
def State.reset : State := State.resetWith 31

end Sys2Proof.Machine
end

