-- ==== Sys2Proof/Machine/Ops.lean ====
section
/-! DEFINITION. The named operations: storage bytes, ports and responses, entering a fault, the register values that
RDREG and every FAULT response read, and the placing of programs. -/

namespace Sys2Proof.Machine

/-! ### Numbers of state names -/

/-- STATE as a 2-bit number (R12). -/
def Life.code : Life → BitVec 2
  | .unconfigured => 0#2
  | .active => 1#2
  | .faulted => 2#2

/-- A phase as a 2-bit number (R21, R22; C8). -/
def Phase.code : Phase → BitVec 2
  | .idle => 0#2
  | .copy => 1#2
  | .pub => 2#2

/-- The parameter MAX_CAPACITY (00_scope R6). -/
def State.maxCapacity (s : State) : U32 := BitVec.ofNat 32 (2 ^ s.maxLog2.val)

/-! ### Storage as a list of cells -/

/-- The byte a list of cells holds at `a`; an unlisted address reads 0 (CREATE's zero fill, R69; log 6). -/
def Memory.get : List Host.Cell → Nat → Byte
  | [], _ => 0#8
  | (x, b) :: m, a => if a = x then b else Memory.get m a

/-- Write `v` at `a` and keep the canonical form: writing 0 removes the entry. -/
def Memory.set : List Host.Cell → Nat → Byte → List Host.Cell
  | [], a, v => if v = 0#8 then [] else [(a, v)]
  | (x, b) :: m, a, v =>
    if a < x then (if v = 0#8 then (x, b) :: m else (a, v) :: (x, b) :: m)
    else if a = x then (if v = 0#8 then m else (a, v) :: m)
    else (x, b) :: Memory.set m a v

/-- The canonical form: addresses strictly rising, and no entry that reads as an unlisted address does. -/
abbrev Memory.wf (m : List Host.Cell) : Prop :=
  m.Pairwise (fun c d => c.1 < d.1) ∧ ∀ c ∈ m, c.2 ≠ 0#8

/-- The cells after 0 is written at every offset below `c` (CREATE's loop, R69). -/
def Memory.zeroBelow (c : Nat) (m : List Host.Cell) : List Host.Cell :=
  m.filter (fun cell => decide (c ≤ cell.1))

/-! ### Storage accesses (00_scope R9, 20_memory R33) -/

/-- The physical byte at offset `o`: below `capacity` what was stored there, elsewhere the free value of the current
draw (R17, R29, 93 U10 to U12; log 6). -/
def State.physByte (s : State) (o : Nat) : Byte :=
  if o < s.capacity.toNat then Memory.get s.storage o else Config.storageDraw s.draws o

/-- `MemRead(o, 1)`: none at an offset that does not exist (log 7). -/
def State.memRead (s : State) (o : Nat) : Option Byte :=
  if o < s.capacity.toNat then some (s.physByte o) else none

/-- `MemWrite(o, 1, v)`: none at an offset that does not exist (log 7). -/
def State.memWrite (s : State) (o : Nat) (v : Byte) : Option State :=
  if o < s.capacity.toNat then some { s with storage := Memory.set s.storage o v } else none

/-- MemRead of `k` bytes from offset `o` upwards. -/
def State.loadBytes (s : State) : Nat → Nat → Option (List Byte)
  | _, 0 => some []
  | o, k + 1 =>
    match s.memRead o with
    | none => none
    | some b =>
      match s.loadBytes (o + 1) k with
      | none => none
      | some bs => some (b :: bs)

/-- MemWrite of these bytes from offset `o` upwards. -/
def State.storeBytes : State → Nat → List Byte → Option State
  | s, _, [] => some s
  | s, o, b :: bs =>
    match s.memWrite o b with
    | none => none
    | some t => t.storeBytes (o + 1) bs

/-- `fence()`: an ordering point with no state effect (00_scope R9, 20_memory R47). Its four uses are R47's four
fence points. -/
def fence (s : State) : State := s

/-! ### Register values (43_register_access R81) -/

/-- LEVEL: the bytes buffered (R24 index 0x04). -/
def State.level (s : State) : U32 := s.writeSeq - s.readSeq

/-- FREE: the space available (R24 index 0x05). -/
def State.free (s : State) : U32 := s.capacity - s.level

/-- STATUS (R25): reserved, RBUSY, WBUSY, STATE. -/
def State.statusReg (s : State) : U32 :=
  0#28 ++ BitVec.ofBool (decide (s.cons.phase ≠ .idle)) ++ BitVec.ofBool (decide (s.prod.phase ≠ .idle))
    ++ s.state.code

/-- The FAULT_CAUSE register's layout (R26): reserved, PORT, CAUSE. -/
def faultWord (p : Port) (c : Cause) : U32 := 0#22 ++ p.id ++ c.code

/-- FAULT_CAUSE (R26). -/
def State.faultReg (s : State) : U32 := faultWord s.faultPort s.faultCause

/-- `regval` (R81). -/
def State.regval (s : State) : Reg → U32
  | .status => s.statusReg
  | .capacity => s.capacity
  | .readSeq => s.readSeq
  | .writeSeq => s.writeSeq
  | .level => s.level
  | .free => s.free
  | .faultCause => s.faultReg
  | .faultCmdLo => s.faultCmd.extractLsb' 0 32
  | .faultCmdHi => s.faultCmd.extractLsb' 32 32
  | .maxCapacity => s.maxCapacity

/-! ### Ports -/

/-- A port's program, pointer and responses. -/
def State.io (s : State) : Port → PortIo
  | .ctl => s.ctlIo
  | .prod => s.prodIo
  | .cons => s.consIo

/-- Replace a port's program, pointer and responses. -/
def State.setIo (s : State) (p : Port) (x : PortIo) : State :=
  match p with
  | .ctl => { s with ctlIo := x }
  | .prod => { s with prodIo := x }
  | .cons => { s with consIo := x }

/-- The request at the port: the program's word at the command pointer (R19, R20; log 4). -/
def State.offered (s : State) (p : Port) : Option Request := (s.io p).program[(s.io p).cp]?

/-- The one place of the response channel: the last response sent (R20; log 5). -/
def State.responseChannel (s : State) (p : Port) : Option Response := (s.io p).responses.getLast?

/-- RSP of a response word (R63). -/
inductive Rsp where
  | ok
  | fault
  deriving DecidableEq, Repr

/-- RSP as a 2-bit number; 2 and 3 are never produced (R63). -/
def Rsp.code : Rsp → BitVec 2
  | .ok => 0#2
  | .fault => 1#2

/-- A response word: VALUE, reserved 0, RSP (R63). -/
def responseWord (rsp : Rsp) (value : U32) : U64 := value ++ 0#30 ++ rsp.code

/-- `respond(P, rsp, value, data)` (00_scope R9). -/
def State.respond (s : State) (p : Port) (rsp : Rsp) (value : U32) (data : List Byte) : State :=
  s.setIo p { s.io p with responses := (s.io p).responses ++ [⟨responseWord rsp value, data⟩] }

/-- `P.cp <- P.cp + 1` (00_scope R9). -/
def State.advance (s : State) (p : Port) : State :=
  s.setIo p { s.io p with cp := (s.io p).cp + 1 }

/-- Send a command's response and move past it: the step that responds increments the pointer (R19). -/
def State.answer (s : State) (p : Port) (rsp : Rsp) (value : U32) (data : List Byte) : State :=
  (s.respond p rsp value data).advance p

/-! ### Faults (60_exceptions) -/

/-- `raise Fault(cause, P, c)` (R86): the fault entry, in one step. Nothing else changes. -/
def State.raise (s : State) (cause : Cause) (p : Port) (c : U64) : State :=
  State.answer { s with state := .faulted, faultCause := cause, faultPort := p, faultCmd := c }
    p .fault (faultWord p cause) []

/-- The answer to a command in FAULTED state (R88): RSP = FAULT with FAULT_CAUSE, and no other effect. -/
def State.refuse (s : State) (p : Port) : State := s.answer p .fault (s.regval .faultCause) []

/-- Whether a transfer is in flight at the port; CTL's commands take one step (R20, R21, R22). -/
def State.busy (s : State) : Port → Bool
  | .ctl => false
  | .prod => decide (s.prod.phase ≠ .idle)
  | .cons => decide (s.cons.phase ≠ .idle)

/-! ### Loading programs from outside (R19, R28; log 3) -/

/-- The start of a run: the reset state of a block whose MAX_CAPACITY is `2 ^ k`, with the three port programs and
the given beginning of a schedule. -/
def State.boot (k : Fin 32) (ctl prod cons : List Request) (sched : List Port) : State :=
  { State.resetWith k with
    ctlIo := { PortIo.reset with program := ctl }
    prodIo := { PortIo.reset with program := prod }
    consIo := { PortIo.reset with program := cons }
    sched := sched }

/-- The port with request `r` at its command pointer. -/
def PortIo.offer (x : PortIo) (r : Request) : PortIo :=
  { x with program := (x.program ++ List.replicate (x.cp + 1 - x.program.length) r).set x.cp r }

/-- Make the port idle, as R20 asks of a port that is to accept a request. -/
def State.makeIdle (s : State) (p : Port) : State :=
  match p with
  | .ctl => s
  | .prod => { s with prod := { s.prod with phase := .idle } }
  | .cons => { s with cons := { s.cons with phase := .idle } }

/-- Offer request `r` at port `p`, idle, and let `p` take the next step. -/
def State.placeRequest (s : State) (p : Port) (r : Request) : State :=
  let t := s.makeIdle p
  { t.setIo p ((t.io p).offer r) with sched := p :: t.sched }

end Sys2Proof.Machine
end

