-- ==== Sys2Proof/Machine/Operands.lean ====
section
/-! DEFINITION. Operand forms: the ring_buffer_indexer (20_memory R34, R35), the clamp of a transfer's length
(41_read R73, 42_write R77) and CREATE's rounding (40_lifecycle R70). -/

namespace Sys2Proof.Machine

/-- `offset(seq) = seq & (C - 1)` (R34). -/
def offsetOf (c seq : U32) : U32 := seq &&& (c - 1#32)

/-- The two segments of a transfer (R35). -/
structure Segments where
  off : Nat
  tail : Nat
  wrap : Nat
  deriving DecidableEq, Repr

/-- R35: the tail segment from `off` to the end of storage, and the rest from offset 0. -/
def segments (c base n : U32) : Segments :=
  let off := (offsetOf c base).toNat
  let tail := min n.toNat (c.toNat - off)
  ⟨off, tail, n.toNat - tail⟩

/-- `min(requested, available)` of two u32 values. -/
def clamp (requested available : U32) : U32 := if requested ≤ available then requested else available

/-- All-or-nothing failure: `AP = 0` and more requested than there is (30_encoding R56). -/
def nothingMoves (ap : Bool) (requested available : U32) : Bool :=
  !ap && decide (available < requested)

/-- The least exponent from `k` on, among `fuel` of them, whose power of two is at least `s`. -/
def log2From (s : Nat) : Nat → Nat → Nat
  | 0, k => k
  | fuel + 1, k => if s ≤ 2 ^ k then k else log2From s fuel (k + 1)

/-- `roundup_pow2(s)`, for `1 <= s <= 2^31` (R70): the least power of two that is at least `s`. -/
def roundupPow2 (s : U32) : U32 := BitVec.ofNat 32 (2 ^ log2From s.toNat 31 0)

end Sys2Proof.Machine
end

