-- ==== Sys2Proof/Machine/Flags.lean ====
section
/-! DEFINITION. The conditions a step tests: the state checks that commands share (60_exceptions R85), and the final
and stuck states of 70 R111. The flags a program sees are STATUS and FAULT_CAUSE (`State.statusReg`,
`State.faultReg` in Ops.lean); no command writes a flag but through STATE and the phases. -/

namespace Sys2Proof.Machine

/-- Whether a transfer is in flight at either transfer port (40_lifecycle R71). -/
def State.transferInFlight (s : State) : Bool := s.busy .prod || s.busy .cons

/-- Whether the agent has an enabled step (00_scope R10): an idle port with a command left may accept it (60 R85),
and a transfer in flight may go on unless the block is FAULTED (60 R87). -/
def State.enabled (s : State) (p : Port) : Bool :=
  if s.busy p then decide (s.state ≠ .faulted)
  else decide ((s.io p).cp < (s.io p).program.length)

/-- A final state (70 R111). -/
def State.final (s : State) : Bool :=
  decide (s.ctlIo.cp = s.ctlIo.program.length) && decide (s.prodIo.cp = s.prodIo.program.length)
    && decide (s.consIo.cp = s.consIo.program.length) && !s.transferInFlight
    && decide (s.state ≠ .faulted) && decide (s.faultCause = .none)

/-- What `step` answers where no agent has an enabled step (70 R111). -/
def State.endOfRun (s : State) : Result := if s.final then .fault .runEnded else .fault .stuck

end Sys2Proof.Machine
end

