-- ==== Sys2Proof/Machine/Lifecycle.lean ====
section
/-! DEFINITION. CREATE and DESTROY (spec/40_lifecycle.md), with R85's FAULTED and NOT_CONFIGURED checks. -/

namespace Sys2Proof.Machine

/-- CREATE's effect once its checks have passed (R69): zero fill, capacity, counters, STATE. -/
def State.configure (s : State) (c : U32) : State :=
  { s with
    storage := Memory.zeroBelow c.toNat s.storage
    capacity := c
    readSeq := 0#32
    writeSeq := 0#32
    state := .active }

/-- DESTROY's effect once its checks have passed (R71): STATE, capacity, counters, and a new draw of every byte. -/
def State.release (s : State) : State :=
  { s with
    state := .unconfigured
    capacity := 0#32
    readSeq := 0#32
    writeSeq := 0#32
    storage := []
    draws := s.draws + 1 }

/-- CREATE size (R69). -/
def execCreate (size : U32) (s : State) : Result :=
  let c := encodeWord (.create size)
  if s.state = .faulted then .next (s.refuse .ctl)
  else if s.state = .active then .next (s.raise .createActive .ctl c)
  else if size = 0#32 ∨ 0x80000000#32 < size then .next (s.raise .badSize .ctl c)
  else if s.maxCapacity < roundupPow2 size then .next (s.raise .allocFail .ctl c)
  else .next ((s.configure (roundupPow2 size)).answer .ctl .ok (roundupPow2 size) [])

/-- DESTROY (R71). -/
def execDestroy (s : State) : Result :=
  let c := encodeWord .destroy
  if s.state = .faulted then .next (s.refuse .ctl)
  else if s.state = .unconfigured then .next (s.raise .notConfigured .ctl c)
  else if s.transferInFlight then .next (s.raise .destroyBusy .ctl c)
  else .next (s.release.answer .ctl .ok 0#32 [])

end Sys2Proof.Machine
end

