-- ==== Sys2Proof/Machine/Read.lean ====
section
/-! DEFINITION. READ (spec/41_read.md): its three steps SNAP, COPY and PUB, and the two commands over them. A
command's meaning is its next step: CONS's phase says which (10_state R22; log 8). -/

namespace Sys2Proof.Machine

/-- SNAP (R73), with the shared checks passed: read both counters, fence, apply the policy. -/
def readSnap (ap : Bool) (len : U32) (s : State) : State :=
  let valid := s.level
  let t := fence s
  if nothingMoves ap len valid then t.answer .cons .ok 0#32 []
  else
    { t with
      cons :=
        { t.cons with
          phase := .copy, len := len, ap := ap, base := s.readSeq, peer := s.writeSeq,
          n := clamp len valid } }

/-- Acceptance of a READ at an idle CONS port (60 R85), `c` its command word. -/
def readAccept (ap : Bool) (len : U32) (c : U64) (s : State) : Result :=
  if s.state = .faulted then .next (s.refuse .cons)
  else if s.state = .unconfigured then .next (s.raise .notConfigured .cons c)
  else .next (readSnap ap len s)

/-- COPY (R74): the tail segment, then the wrap segment, then the fence. Storage is not modified. -/
def readCopy (s : State) : Result :=
  if s.state = .faulted then .fault .frozen
  else
    let g := segments s.capacity s.cons.base s.cons.n
    match s.loadBytes g.off g.tail with
    | none => .fault .storageOutOfRange
    | some tailData =>
      match s.loadBytes 0 g.wrap with
      | none => .fault .storageOutOfRange
      | some wrapData =>
        let t := fence s
        .next { t with cons := { t.cons with phase := .pub, data := tailData ++ wrapData } }

/-- PUB (R75): publish the counter, respond with the data, go idle. -/
def readPub (s : State) : Result :=
  if s.state = .faulted then .fault .frozen
  else
    let t := { s with readSeq := s.cons.base + s.cons.n, cons := { s.cons with phase := .idle } }
    .next (t.answer .cons .ok s.cons.n s.cons.data)

/-- The next step of READ `len` with `AP = ap` and command word `c`. -/
def readStep (ap : Bool) (len : U32) (c : U64) (s : State) : Result :=
  match s.cons.phase with
  | .idle => readAccept ap len c s
  | .copy => readCopy s
  | .pub => readPub s

/-- READ.ALL len (R72). -/
def execReadAll (len : U32) (s : State) : Result := readStep false len (encodeWord (.readAll len)) s

/-- READ.PART len (R72). -/
def execReadPart (len : U32) (s : State) : Result := readStep true len (encodeWord (.readPart len)) s

end Sys2Proof.Machine
end

