-- ==== Sys2Proof/Machine/RegAccess.lean ====
section
/-! DEFINITION. RDREG (spec/43_register_access.md): served in every STATE, FAULTED included (60 R85, R88). -/

namespace Sys2Proof.Machine

/-- RDREG index (R80): one atomic read of the register, as the response's VALUE. -/
def execRdreg (reg : Reg) (s : State) : Result := .next (s.answer .ctl .ok (s.regval reg) [])

end Sys2Proof.Machine
end

