-- ==== Sys2Proof/Machine/Write.lean ====
section
/-! DEFINITION. WRITE (spec/42_write.md): its three steps SNAP, COPY and PUB, and the two commands over them. A
command's meaning is its next step: PROD's phase says which (10_state R21; log 8). -/

namespace Sys2Proof.Machine

/-- SNAP (R77), with the shared checks passed: read both counters, fence, apply the policy. -/
def writeSnap (ap : Bool) (len : U32) (src : List Byte) (s : State) : State :=
  let empty := s.free
  let t := fence s
  if nothingMoves ap len empty then t.answer .prod .ok 0#32 []
  else
    { t with
      prod :=
        { phase := .copy, len := len, ap := ap, payload := src, base := s.writeSeq, peer := s.readSeq,
          n := clamp len empty } }

/-- Acceptance of a WRITE at an idle PROD port (60 R85), `c` its command word. -/
def writeAccept (ap : Bool) (len : U32) (src : List Byte) (c : U64) (s : State) : Result :=
  if s.state = .faulted then .next (s.refuse .prod)
  else if s.state = .unconfigured then .next (s.raise .notConfigured .prod c)
  else .next (writeSnap ap len src s)

/-- COPY (R78): the tail segment, then the wrap segment, then the fence. -/
def writeCopy (s : State) : Result :=
  if s.state = .faulted then .fault .frozen
  else if s.prod.payload.length < s.prod.n.toNat then .fault .payloadTooShort
  else
    let g := segments s.capacity s.prod.base s.prod.n
    match s.storeBytes g.off (s.prod.payload.take g.tail) with
    | none => .fault .storageOutOfRange
    | some t =>
      match t.storeBytes 0 ((s.prod.payload.drop g.tail).take g.wrap) with
      | none => .fault .storageOutOfRange
      | some u =>
        let v := fence u
        .next { v with prod := { v.prod with phase := .pub } }

/-- PUB (R79): publish the counter, respond, go idle. -/
def writePub (s : State) : Result :=
  if s.state = .faulted then .fault .frozen
  else
    let t := { s with writeSeq := s.prod.base + s.prod.n, prod := { s.prod with phase := .idle } }
    .next (t.answer .prod .ok s.prod.n [])

/-- The next step of WRITE `len`, `src` with `AP = ap` and command word `c`. -/
def writeStep (ap : Bool) (len : U32) (src : List Byte) (c : U64) (s : State) : Result :=
  match s.prod.phase with
  | .idle => writeAccept ap len src c s
  | .copy => writeCopy s
  | .pub => writePub s

/-- WRITE.ALL len, src (R76). -/
def execWriteAll (len : U32) (src : List Byte) (s : State) : Result :=
  writeStep false len src (encodeWord (.writeAll len src)) s

/-- WRITE.PART len, src (R76). -/
def execWritePart (len : U32) (src : List Byte) (s : State) : Result :=
  writeStep true len src (encodeWord (.writePart len src)) s

end Sys2Proof.Machine
end

