-- ==== Sys2Proof/Machine/Dispatch.lean ====
section
/-! DEFINITION. One arm per command: its meaning is the next step of that command on the port it is bound to. -/

namespace Sys2Proof.Machine

def exec (i : Instr) (s : State) : Host.Outcome State Fault Refusal :=
  match i with
  | .create size => Sys2Proof.Machine.execCreate size s
  | .destroy => Sys2Proof.Machine.execDestroy s
  | .writeAll len src => Sys2Proof.Machine.execWriteAll len src s
  | .writePart len src => Sys2Proof.Machine.execWritePart len src s
  | .readAll len => Sys2Proof.Machine.execReadAll len s
  | .readPart len => Sys2Proof.Machine.execReadPart len s
  | .rdreg reg => Sys2Proof.Machine.execRdreg reg s

end Sys2Proof.Machine
end

