-- ==== Sys2Proof/Machine/Agents.lean ====
section
/-! DEFINITION. One step of one agent (00_scope R10): which agent moves, acceptance of a request (60_exceptions R85),
and the COPY and PUB steps of a transfer in flight. -/

namespace Sys2Proof.Machine

/-- Acceptance at an idle port (R85): a decoded command runs (its meaning makes R85's state checks); a word that does
not decode raises its cause, or is refused once FAULTED. -/
def accept (p : Port) (r : Request) (s : State) : Result :=
  match decode p r with
  | .ok i => exec i s
  | .error cause =>
    if s.state = .faulted then .next (s.refuse p) else .next (s.raise cause p r.word)

/-- The next step of the transfer in flight at a port: COPY or PUB (41_read R74, R75; 42_write R78, R79). -/
def transferStep (p : Port) (s : State) : Result :=
  match p with
  | .ctl => .fault .stuck
  | .prod =>
    match s.prod.phase with
    | .idle => .fault .stuck
    | .copy => writeCopy s
    | .pub => writePub s
  | .cons =>
    match s.cons.phase with
    | .idle => .fault .stuck
    | .copy => readCopy s
    | .pub => readPub s

/-- The step of one agent: its transfer in flight goes on, or its port accepts the request offered. -/
def agentStep (p : Port) (s : State) : Result :=
  if s.busy p then transferStep p s
  else
    match s.offered p with
    | none => s.endOfRun
    | some r => accept p r s

/-- The agents that have an enabled step. -/
def State.enabledPorts (s : State) : List Port :=
  [Port.ctl, Port.prod, Port.cons].filter (fun p => s.enabled p)

/-- The agent that moves next, with what is left of the schedule (log 2): the first scheduled agent that has an
enabled step; where none is scheduled the only enabled agent, or one of several as a free value chooses. -/
def State.pick (s : State) : Option (Port × List Port) :=
  match s.sched.dropWhile (fun p => !s.enabled p) with
  | p :: rest => some (p, rest)
  | [] =>
    match s.enabledPorts with
    | [] => none
    | [p] => some (p, [])
    | p :: q :: ps => some ((p :: q :: ps).getD (Config.agentChoice s.ticks % (ps.length + 2)) p, [])

/-- What choosing an agent leaves: the rest of the schedule, and the step counted. -/
def State.consume (s : State) (rest : List Port) : State := { s with sched := rest, ticks := s.ticks + 1 }

/-- One step of the machine: one atomic action of one agent, or the end of the run (R10, 70 R111). -/
def machineStep (s : State) : Result :=
  match s.pick with
  | none => s.endOfRun
  | some (p, rest) => agentStep p (s.consume rest)

end Sys2Proof.Machine
end

