-- ==== Sys2Proof/Machine/Step.lean ====
section
/-! DEFINITION. The step of the machine, and the placing of one command of the opcode table. -/

namespace Sys2Proof.Machine

/-- One step (00_scope R10). -/
def step (s : State) : Host.Outcome State Fault Refusal := machineStep s

/-- `s` with the table's word `w` offered at the port its opcode is bound to, that port idle and first to move (log 3). -/
def State.withFetchWord (s : State) (nbits w : Nat) : State :=
  s.placeRequest (portOfWord (tableRequest nbits w).word) (tableRequest nbits w)

end Sys2Proof.Machine
end

