-- ==== Sys2Proof/Machine/Asm.lean ====
section
/-! DEFINITION. The assembler of 30_encoding R67 and the pseudo-instructions of R68: from one line of text to the port
that is to offer the command and the request itself. What R67 leaves open of the spelling is log 11. -/

namespace Sys2Proof.Machine

/-! ### Words of a line -/

/-- The tokens of a line. -/
inductive Token where
  | word (cs : List Char)
  | bytes (bs : List Byte)
  | comma
  | colon
  | openBracket
  | closeBracket
  deriving DecidableEq, Repr

/-- Where the lexer stands: between tokens, inside a word (letters so far, last first), inside a quoted string. -/
inductive LexMode where
  | gap
  | inWord (acc : List Char)
  | inString (acc : List Byte)
  deriving DecidableEq, Repr

/-- What a character outside a string begins or is; none for a character no token has. -/
def startToken (c : Char) : Option (List Token × LexMode) :=
  if c = ' ' then some ([], .gap)
  else if c = ',' then some ([.comma], .gap)
  else if c = ':' then some ([.colon], .gap)
  else if c = '[' then some ([.openBracket], .gap)
  else if c = ']' then some ([.closeBracket], .gap)
  else if c.toNat = 0x22 then some ([], .inString [])
  else if c.isAlphanum || c = '.' || c = '_' then some ([], .inWord [c])
  else none

/-- The tokens of a line; none when a character or an unclosed string makes it no line. A quoted string stands for
the ASCII codes of its characters (R67, 93 G2). -/
def lex : LexMode → List Char → Option (List Token)
  | .gap, [] => some []
  | .inWord acc, [] => some [.word acc.reverse]
  | .inString _, [] => none
  | .gap, c :: cs =>
    match startToken c with
    | none => none
    | some (ts, m) => (lex m cs).map (ts ++ ·)
  | .inWord acc, c :: cs =>
    match startToken c with
    | none => none
    | some (_, .inWord _) => lex (.inWord (c :: acc)) cs
    | some (ts, m) => (lex m cs).map (.word acc.reverse :: ts ++ ·)
  | .inString acc, c :: cs =>
    if c.toNat = 0x22 then (lex .gap cs).map (.bytes acc.reverse :: ·)
    else if c.toNat < 128 then lex (.inString (BitVec.ofNat 8 c.toNat :: acc)) cs
    else none

/-! ### Numbers (R67: decimal or `0x` hex) -/

/-- The value of a hexadecimal digit. -/
def hexDigit? (c : Char) : Option Nat :=
  if '0' ≤ c ∧ c ≤ '9' then some (c.toNat - 0x30)
  else if 'a' ≤ c ∧ c ≤ 'f' then some (c.toNat - 0x61 + 10)
  else if 'A' ≤ c ∧ c ≤ 'F' then some (c.toNat - 0x41 + 10)
  else none

/-- The value of digits in a base, `acc` the value of those before. -/
def digitsFrom (base : Nat) : Nat → List Char → Option Nat
  | acc, [] => some acc
  | acc, c :: cs =>
    match hexDigit? c with
    | none => none
    | some d => if d < base then digitsFrom base (acc * base + d) cs else none

/-- A decimal or `0x` number below `bound`. -/
def numberBelow (bound : Nat) (cs : List Char) : Option Nat :=
  let value :=
    match cs with
    | [] => none
    | '0' :: 'x' :: [] => none
    | '0' :: 'x' :: ds => digitsFrom 16 0 ds
    | ds => digitsFrom 10 0 ds
  value.filter (· < bound)

/-- A u32 operand (R58). -/
def u32Operand (cs : List Char) : Option U32 := (numberBelow (2 ^ 32) cs).map (BitVec.ofNat 32)

/-- The items of a bracketed byte list after its opening bracket, separated by commas (R8). -/
def byteItems : List Token → Option (List Byte)
  | [.word w, .closeBracket] => (numberBelow 256 w).map (fun n => [BitVec.ofNat 8 n])
  | .word w :: .comma :: ts =>
    match numberBelow 256 w, byteItems ts with
    | some n, some bs => some (BitVec.ofNat 8 n :: bs)
    | _, _ => none
  | _ => none

/-- A byte operand: a quoted string or a bracketed list (R67). -/
def byteOperand : List Token → Option (List Byte)
  | [.bytes bs] => some bs
  | [.openBracket, .closeBracket] => some []
  | .openBracket :: ts => byteItems ts
  | _ => none

/-! ### Names -/

/-- The mnemonics of R67 and the pseudo-instructions of R68. -/
inductive Mnemonic where
  | create
  | destroy
  | rdreg
  | writeAll
  | writePart
  | readAll
  | readPart
  | push
  | offer
  | pop
  | drain
  | status
  | level
  deriving DecidableEq, Repr

/-- Their spelling (R67, R68). -/
def mnemonicNames : List (List Char × Mnemonic) :=
  [("CREATE".toList, .create), ("DESTROY".toList, .destroy), ("RDREG".toList, .rdreg),
    ("WRITE.ALL".toList, .writeAll), ("WRITE.PART".toList, .writePart), ("READ.ALL".toList, .readAll),
    ("READ.PART".toList, .readPart), ("PUSH".toList, .push), ("OFFER".toList, .offer), ("POP".toList, .pop),
    ("DRAIN".toList, .drain), ("STATUS".toList, .status), ("LEVEL".toList, .level)]

/-- The port a mnemonic is bound to (R67, R68). -/
def mnemonicPort : Mnemonic → Port
  | .create | .destroy | .rdreg | .status | .level => .ctl
  | .writeAll | .writePart | .push | .offer => .prod
  | .readAll | .readPart | .pop | .drain => .cons

/-- The ports' names (R67). -/
def portNames : List (List Char × Port) :=
  [("ctl".toList, .ctl), ("prod".toList, .prod), ("cons".toList, .cons)]

/-- The registers' names (R67: "names as in 10_state.md rule R24"). -/
def regNames : List (List Char × Reg) :=
  [("STATUS".toList, .status), ("CAPACITY".toList, .capacity), ("READ_SEQ".toList, .readSeq),
    ("WRITE_SEQ".toList, .writeSeq), ("LEVEL".toList, .level), ("FREE".toList, .free),
    ("FAULT_CAUSE".toList, .faultCause), ("FAULT_CMD_LO".toList, .faultCmdLo),
    ("FAULT_CMD_HI".toList, .faultCmdHi), ("MAX_CAPACITY".toList, .maxCapacity)]

/-- RDREG's operand: a register's name or an 8-bit index, a reserved one included (R67). -/
def regOperand (cs : List Char) : Option (BitVec 8) :=
  match regNames.lookup cs with
  | some r => some r.index
  | none => (numberBelow 256 cs).map (BitVec.ofNat 8)

/-! ### Lines -/

/-- A WRITE with `AP = ap`: `<len>, <bytes>` of equal length, or the bytes alone (R67). -/
def writeLine (ap : BitVec 1) (ts : List Token) : Option Request :=
  let make (len : U32) (bs : List Byte) : Option Request :=
    if payloadFits len bs then some ⟨commandWord len 0#8 ap (opcodeBits .write), bs⟩ else none
  match ts with
  | .word n :: .comma :: rest =>
    match u32Operand n, byteOperand rest with
    | some len, some bs => make len bs
    | _, _ => none
  | _ =>
    match byteOperand ts with
    | some bs => make (BitVec.ofNat 32 bs.length) bs
    | none => none

/-- A READ with `AP = ap` of an explicit length (R67). -/
def readLine (ap : BitVec 1) (ts : List Token) : Option Request :=
  match ts with
  | [.word n] => (u32Operand n).map (fun len => ⟨commandWord len 0#8 ap (opcodeBits .read), []⟩)
  | _ => none

/-- A command with no operand. -/
def plainLine (i : Instr) (ts : List Token) : Option Request :=
  match ts with
  | [] => some (encode i)
  | _ => none

/-- The request of a mnemonic and its operands (R67, R68). -/
def requestOf (m : Mnemonic) (ts : List Token) : Option Request :=
  match m with
  | .create =>
    match ts with
    | [.word n] => (u32Operand n).map (fun size => encode (.create size))
    | _ => none
  | .destroy => plainLine .destroy ts
  | .rdreg =>
    match ts with
    | [.word x] => (regOperand x).map (fun ix => ⟨commandWord 0#32 ix 0#1 (opcodeBits .rdreg), []⟩)
    | _ => none
  | .writeAll => writeLine 0#1 ts
  | .writePart => writeLine 1#1 ts
  | .readAll => readLine 0#1 ts
  | .readPart => readLine 1#1 ts
  | .push => (byteOperand ts).bind (fun bs => writeLine 0#1 [.bytes bs])
  | .offer => (byteOperand ts).bind (fun bs => writeLine 1#1 [.bytes bs])
  | .pop => readLine 0#1 ts
  | .drain => plainLine (.readPart 0xFFFFFFFF#32) ts
  | .status => plainLine (.rdreg .status) ts
  | .level => plainLine (.rdreg .level) ts

/-- R67: `<port>: <mnemonic> <operands>`. None for a line the assembler rejects: no such port or mnemonic, a mnemonic
not bound to its port, or operands that do not fit. -/
def assemble (line : List Char) : Option (Port × Request) :=
  match lex .gap line with
  | some (.word p :: .colon :: .word m :: ts) =>
    match portNames.lookup p, mnemonicNames.lookup m with
    | some port, some mn =>
      if mnemonicPort mn = port then (requestOf mn ts).map (fun r => (port, r)) else none
    | _, _ => none
  | _ => none

end Sys2Proof.Machine
end

