-- ==== Sys2Proof/Safety.lean ====
section
/-! DEFINITION. What claims speak of: the bytes buffered as a queue, the bytes the responses show, the invariant of
the machine, and the work left in the three programs. No step tests any of these (10_state R16). -/

namespace Sys2Proof.Machine

/-! ### The buffered bytes -/

/-- The storage byte of a sequence number (20_memory R34). -/
def State.byteAt (s : State) (seq : U32) : Byte :=
  Memory.get s.storage (offsetOf s.capacity seq).toNat

/-- The `k` bytes from sequence number `base` on, in order (20_memory R36). -/
def State.window (s : State) (base : U32) (k : Nat) : List Byte :=
  (List.range k).map (fun i => s.byteAt (base + BitVec.ofNat 32 i))

/-- The bytes buffered, oldest first: sequence numbers `read_seq` to `write_seq` (10_state R16). -/
def State.queue (s : State) : List Byte := s.window s.readSeq s.level.toNat

/-! ### The bytes the responses show -/

/-- VALUE of a response (30_encoding R63). -/
def Response.value (a : Response) : U32 := a.word.extractLsb' 32 32

/-- Whether RSP of a response is OK (30_encoding R63). -/
def Response.isOk (a : Response) : Bool := a.word.extractLsb' 0 2 == 0#2

/-- The bytes PROD's answered commands have appended: of each OK answer, the first VALUE bytes of its payload (R76). -/
def bytesWritten (x : PortIo) : List Byte :=
  ((x.program.zip x.responses).map
    (fun c => if Response.isOk c.2 then c.1.payload.take (Response.value c.2).toNat else [])).flatten

/-- The bytes CONS's answered commands have returned (R72). -/
def bytesRead (x : PortIo) : List Byte := (x.responses.map (·.data)).flatten

/-! ### The command in flight -/

/-- The WRITE that PROD's registers hold. -/
def ProdRegs.command (r : ProdRegs) : Instr :=
  if r.ap then .writePart r.len r.payload else .writeAll r.len r.payload

/-- The READ that CONS's registers hold. -/
def ConsRegs.command (r : ConsRegs) : Instr := if r.ap then .readPart r.len else .readAll r.len

/-! ### The invariant -/

/-- What holds of PROD's registers while a WRITE is in flight (10_state R21, 20_memory R49, R50, 42_write R77). -/
structure WriteFlight (s : State) : Prop where
  /-- `write_seq` is only PROD.base while the WRITE is in flight (R49, R79). -/
  base : s.prod.base = s.writeSeq
  /-- The level the snapshot showed is in [0, C] (R16). -/
  snapshot : s.prod.base - s.prod.peer ≤ s.capacity
  /-- CONS may have consumed since, so the level is at most what the snapshot showed (R50). -/
  stale : s.level ≤ s.prod.base - s.prod.peer
  /-- `n <= C - (base -w peer)` (R77). -/
  fits : s.prod.n ≤ s.capacity - (s.prod.base - s.prod.peer)
  /-- `n <= len` (R76). -/
  bound : s.prod.n ≤ s.prod.len
  /-- All-or-nothing moves all (R76). -/
  all : s.prod.ap = false → s.prod.n = s.prod.len
  /-- `|src| = len` (30_encoding R62). -/
  payload : s.prod.payload.length = s.prod.len.toNat
  /-- After COPY the bytes from `write_seq` on are the payload's (R78). -/
  copied : s.prod.phase = .pub → s.window s.writeSeq s.prod.n.toNat = s.prod.payload.take s.prod.n.toNat
  /-- The command at PROD.cp is the WRITE in flight (10_state R19). -/
  command : ∃ r, s.offered .prod = some r ∧ decode .prod r = .ok s.prod.command

/-- What holds of CONS's registers while a READ is in flight (10_state R22, 20_memory R49, R50, 41_read R73). -/
structure ReadFlight (s : State) : Prop where
  /-- `read_seq` is only CONS.base while the READ is in flight (R49, R75). -/
  base : s.cons.base = s.readSeq
  /-- PROD may have published since, so the level is at least what the snapshot showed (R50). -/
  stale : s.cons.peer - s.cons.base ≤ s.level
  /-- `n <= peer -w base` (R73). -/
  fits : s.cons.n ≤ s.cons.peer - s.cons.base
  /-- `n <= len` (R72). -/
  bound : s.cons.n ≤ s.cons.len
  /-- All-or-nothing moves all (R72). -/
  all : s.cons.ap = false → s.cons.n = s.cons.len
  /-- After COPY the data are the bytes from `read_seq` on (R74). -/
  copied : s.cons.phase = .pub → s.cons.data = s.window s.readSeq s.cons.n.toNat
  /-- The command at CONS.cp is the READ in flight (10_state R19). -/
  command : ∃ r, s.offered .cons = some r ∧ decode .cons r = .ok s.cons.command

/-- What holds of a port's pointer and channels (10_state R19, R20): one response per command passed. -/
structure PortInv (s : State) (p : Port) : Prop where
  answered : (s.io p).responses.length = (s.io p).cp
  inside : (s.io p).cp ≤ (s.io p).program.length
  pending : s.busy p = true → (s.io p).cp < (s.io p).program.length

/-- The invariant of the machine: it holds at reset and every step keeps it. -/
structure Inv (s : State) : Prop where
  /-- Storage is canonical (log 6). -/
  memory : Memory.wf s.storage
  /-- Only offsets below `capacity` hold anything (R33). -/
  addresses : ∀ c ∈ s.storage, c.1 < s.capacity.toNat
  /-- `capacity` is 0 or a power of two of at most MAX_CAPACITY (R13, R32). -/
  capacity : s.capacity.toNat = 0 ∨ ∃ k, k ≤ s.maxLog2.val ∧ s.capacity.toNat = 2 ^ k
  /-- UNCONFIGURED has no buffer (R13). -/
  unconfigured : s.state = .unconfigured → s.capacity = 0#32
  /-- ACTIVE has one (R32). -/
  active : s.state = .active → s.capacity ≠ 0#32
  /-- Without a buffer the counters are 0 and both transfer ports idle (R16, R31). -/
  noBuffer : s.capacity = 0#32 →
    s.readSeq = 0#32 ∧ s.writeSeq = 0#32 ∧ s.prod.phase = .idle ∧ s.cons.phase = .idle
  /-- The fault registers name a cause exactly when FAULTED (R23, R83). -/
  fault : s.state = .faulted ↔ s.faultCause ≠ .none
  /-- The occupancy invariant (R16). -/
  occupancy : s.level ≤ s.capacity
  /-- A WRITE in flight. -/
  write : s.prod.phase ≠ .idle → WriteFlight s
  /-- A READ in flight. -/
  read : s.cons.phase ≠ .idle → ReadFlight s
  /-- The ports. -/
  ports : ∀ p, PortInv s p

/-! ### Runs -/

/-- The states of all runs: from reset, with any three port programs, any MAX_CAPACITY and any beginning of a
schedule (10_state R19, R28, 70 R100), by steps. -/
inductive Reachable : State → Prop
  | boot (k : Fin 32) (ctl prod cons : List Request) (sched : List Port) :
      Reachable (State.boot k ctl prod cons sched)
  | step {s t : State} (h : Reachable s) (hs : step s = .next t) : Reachable t

/-- The steps a transfer has taken. -/
def Phase.done : Phase → Nat
  | .idle => 0
  | .copy => 1
  | .pub => 2

/-- The commands a port has left. -/
def PortIo.left (x : PortIo) : Nat := x.program.length - x.cp

/-- A bound on the steps left: three for each command, less those taken of the transfers in flight (70 R109). -/
def State.work (s : State) : Nat :=
  3 * s.ctlIo.left + (3 * s.prodIo.left - s.prod.phase.done) + (3 * s.consIo.left - s.cons.phase.done)

/-- `k` steps of one command's meaning, each from the state the last one left. -/
def execTimes : Nat → Instr → State → Result
  | 0, _, s => .next s
  | k + 1, i, s =>
    match exec i s with
    | .next t => execTimes k i t
    | .fault f => .fault f
    | .refused r => .refused r


/-- A run in which every agent whose step stays enabled eventually takes it (70 R110): the assumption under which
claims that a run with endless programs makes progress would be stated. -/
def WeaklyFair (run : Nat → State) : Prop :=
  ∀ p k, (∀ j, k ≤ j → (run j).enabled p = true) → ∃ j rest, k ≤ j ∧ (run j).pick = some (p, rest)

end Sys2Proof.Machine
end

