-- ==== Sys2Proof/Certificates/Slice0/Obligations.lean ====
section
/-! DEFINITION. The statements for the provers, from the numbered rules of spec/. Each docstring names the rule it
formalises. A statement about every state holds in states no run reaches too, or has the invariant as a premise. -/

open Sys2Proof Sys2Proof.Machine

/-! ### Encoding (spec/30_encoding.md) -/

/-- Every well-formed command decodes from its own request, on the port it is bound to, with every operand at every
value (R54 to R58, R64). -/
def Obligations.DecodeInvertsEncode : Prop :=
  ∀ i : Instr, i.wellFormed = true → decode i.port (encode i) = .ok i

/-- A word that decodes is the word of the command it decodes to: no bit is dropped, the command is bound to the port,
and a WRITE carries the request's payload (R54, R61, R62). -/
def Obligations.EncodeInvertsDecode : Prop :=
  ∀ (p : Port) (r : Request) (i : Instr), decode p r = .ok i →
    encodeWord i = r.word ∧ i.wellFormed = true ∧ i.port = p ∧ (i.port = .prod → i.payload = r.payload)

/-- R64: the checks, in its order, on the bits of the word. -/
def Obligations.DecodeFollowsCheckOrder : Prop :=
  ∀ (p : Port) (r : Request),
    let c := r.word
    let opc := (c.extractLsb' 0 4).toNat
    let reg := (c.extractLsb' 16 8).toNat
    let arg := (c.extractLsb' 32 32).toNat
    if ¬ (1 ≤ opc ∧ opc ≤ 5) then decode p r = .error .illegalOpcode
    else if (if opc = 3 then Port.prod else if opc = 4 then Port.cons else Port.ctl) ≠ p then
      decode p r = .error .wrongPort
    else if c.extractLsb' 5 11 ≠ 0#11 ∨ c.extractLsb' 24 8 ≠ 0#8 then decode p r = .error .reservedField
    else if opc ≠ 3 ∧ opc ≠ 4 ∧ c.getLsbD 4 = true then decode p r = .error .reservedField
    else if opc ≠ 5 ∧ reg ≠ 0 then decode p r = .error .reservedField
    else if (opc = 2 ∨ opc = 5) ∧ arg ≠ 0 then decode p r = .error .reservedField
    else if opc = 5 ∧ 9 < reg then decode p r = .error .badReg
    else if opc = 3 ∧ r.payload.length ≠ arg then decode p r = .error .badPayload
    else
      decode p r = .ok
        (if opc = 1 then .create (c.extractLsb' 32 32)
        else if opc = 2 then .destroy
        else if opc = 3 then
          (if c.getLsbD 4 then .writePart (c.extractLsb' 32 32) r.payload
          else .writeAll (c.extractLsb' 32 32) r.payload)
        else if opc = 4 then
          (if c.getLsbD 4 then .readPart (c.extractLsb' 32 32) else .readAll (c.extractLsb' 32 32))
        else .rdreg ([Reg.status, .capacity, .readSeq, .writeSeq, .level, .free, .faultCause, .faultCmdLo,
          .faultCmdHi, .maxCapacity].getD reg .status))

/-- The mask and match of each row of opcode_table.json are exactly the words that decode to the row's command. -/
def Obligations.TableRowsAreExact : Prop :=
  ∀ (c : U64) (src : List Byte),
    (∀ size, decode .ctl ⟨c, src⟩ = .ok (.create size) ↔
      c &&& 0x00000000FFFFFFFF#64 = 0x1#64 ∧ size = c.extractLsb' 32 32) ∧
    (decode .ctl ⟨c, src⟩ = .ok .destroy ↔ c &&& 0xFFFFFFFFFFFFFFFF#64 = 0x2#64) ∧
    (∀ len pay, decode .prod ⟨c, src⟩ = .ok (.writeAll len pay) ↔
      c &&& 0x00000000FFFFFFFF#64 = 0x3#64 ∧ len = c.extractLsb' 32 32 ∧ pay = src ∧ src.length = len.toNat) ∧
    (∀ len pay, decode .prod ⟨c, src⟩ = .ok (.writePart len pay) ↔
      c &&& 0x00000000FFFFFFFF#64 = 0x13#64 ∧ len = c.extractLsb' 32 32 ∧ pay = src ∧ src.length = len.toNat) ∧
    (∀ len, decode .cons ⟨c, src⟩ = .ok (.readAll len) ↔
      c &&& 0x00000000FFFFFFFF#64 = 0x4#64 ∧ len = c.extractLsb' 32 32) ∧
    (∀ len, decode .cons ⟨c, src⟩ = .ok (.readPart len) ↔
      c &&& 0x00000000FFFFFFFF#64 = 0x14#64 ∧ len = c.extractLsb' 32 32) ∧
    (∀ reg : Reg, decode .ctl ⟨c, src⟩ = .ok (.rdreg reg) ↔
      c &&& 0xFFFFFFFFFF00FFFF#64 = 0x5#64 ∧ reg.index = c.extractLsb' 16 8)

/-- One word of each row, written out from 30_encoding R54 and R55, decodes to its command; a word of each kind of
illegal encoding does not. -/
def Obligations.WrittenWordsDecode : Prop :=
  decode .ctl ⟨0x0000000A00000001#64, []⟩ = .ok (.create 10#32) ∧
  decode .ctl ⟨0x0000000000000002#64, []⟩ = .ok .destroy ∧
  decode .prod ⟨0x0000000200000003#64, [0x61#8, 0x62#8]⟩ = .ok (.writeAll 2#32 [0x61#8, 0x62#8]) ∧
  decode .prod ⟨0x0000000100000013#64, [0x7A#8]⟩ = .ok (.writePart 1#32 [0x7A#8]) ∧
  decode .cons ⟨0x0000000500000004#64, []⟩ = .ok (.readAll 5#32) ∧
  decode .cons ⟨0xFFFFFFFF00000014#64, []⟩ = .ok (.readPart 0xFFFFFFFF#32) ∧
  decode .ctl ⟨0x0000000000040005#64, []⟩ = .ok (.rdreg .level) ∧
  decode .ctl ⟨0x00000000000A0005#64, []⟩ = .error .badReg ∧
  decode .cons ⟨0x0000000101000004#64, []⟩ = .error .reservedField

/-- R66: words little-endian, byte `j` = `word[8j+7 : 8j]`, then the payload or the data; and the request comes back. -/
def Obligations.WordsAreLittleEndian : Prop :=
  (∀ r : Request, requestBytes r = (List.range 8).map (fun j => r.word.extractLsb' (8 * j) 8) ++ r.payload) ∧
  (∀ a : Response, responseBytes a = (List.range 8).map (fun j => a.word.extractLsb' (8 * j) 8) ++ a.data) ∧
  (∀ r : Request, parseRequest (requestBytes r) = some r)

/-- R67, R64: a line the assembler accepts is a request that its port decodes, but for an RDREG of a reserved index. -/
def Obligations.AssembledLinesDecode : Prop :=
  ∀ (line : List Char) (p : Port) (r : Request), assemble line = some (p, r) →
    (∃ i, decode p r = .ok i) ∨ decode p r = .error .badReg

/-- R67: the request each mnemonic of the table makes of its operands. A WRITE's `<len>` may be left out, and one that
differs from the length of the bytes is rejected; RDREG takes a register's name (10_state R24) or an index. -/
def Obligations.MnemonicsEncodeTheirRow : Prop :=
  (∀ n size, u32Operand n = some size → requestOf .create [.word n] = some (encode (.create size))) ∧
  requestOf .destroy [] = some (encode .destroy) ∧
  (∀ x ix, regOperand x = some ix →
    requestOf .rdreg [.word x] = some ⟨0#40 ++ ix ++ 0x0005#16, []⟩ ∧
    (∀ reg : Reg, reg.index = ix → requestOf .rdreg [.word x] = some (encode (.rdreg reg)))) ∧
  ["STATUS", "CAPACITY", "READ_SEQ", "WRITE_SEQ", "LEVEL", "FREE", "FAULT_CAUSE", "FAULT_CMD_LO", "FAULT_CMD_HI",
    "MAX_CAPACITY"].map (fun name => regOperand name.toList) =
      (List.range 10).map (fun ix => some (BitVec.ofNat 8 ix)) ∧
  (∀ ts bs, byteOperand ts = some bs →
    (∀ n len, u32Operand n = some len →
      requestOf .writeAll (.word n :: .comma :: ts) =
        (if bs.length = len.toNat then some (encode (.writeAll len bs)) else none) ∧
      requestOf .writePart (.word n :: .comma :: ts) =
        (if bs.length = len.toNat then some (encode (.writePart len bs)) else none)) ∧
    (bs.length < 2 ^ 32 →
      requestOf .writeAll ts = some (encode (.writeAll (BitVec.ofNat 32 bs.length) bs)) ∧
      requestOf .writePart ts = some (encode (.writePart (BitVec.ofNat 32 bs.length) bs)))) ∧
  (∀ n len, u32Operand n = some len →
    requestOf .readAll [.word n] = some (encode (.readAll len)) ∧
    requestOf .readPart [.word n] = some (encode (.readPart len)))

/-- R67, R68: the spelling and the port of every mnemonic, as the tokens of a line. On its own port the line is the
request of the mnemonic and its operands; on another port it is rejected. -/
def Obligations.LinesNameTheirPortAndMnemonic : Prop :=
  ∀ row ∈ [("CREATE", Mnemonic.create, Port.ctl), ("DESTROY", .destroy, .ctl), ("RDREG", .rdreg, .ctl),
      ("WRITE.ALL", .writeAll, .prod), ("WRITE.PART", .writePart, .prod),
      ("READ.ALL", .readAll, .cons), ("READ.PART", .readPart, .cons),
      ("PUSH", .push, .prod), ("OFFER", .offer, .prod), ("POP", .pop, .cons), ("DRAIN", .drain, .cons),
      ("STATUS", .status, .ctl), ("LEVEL", .level, .ctl)],
    ∀ port ∈ [("ctl", Port.ctl), ("prod", .prod), ("cons", .cons)],
      ∀ line ts, lex .gap line = some (.word port.1.toList :: .colon :: .word row.1.toList :: ts) →
        assemble line =
          if port.2 = row.2.2 then (requestOf row.2.1 ts).map (fun r => (row.2.2, r)) else none

/-- R68: the expansions of the pseudo-instructions, for a byte operand of fewer than 2^32 bytes. -/
def Obligations.PseudoInstructionsExpand : Prop :=
  (∀ ts bs, byteOperand ts = some bs → bs.length < 2 ^ 32 →
    requestOf .push ts = some (encode (.writeAll (BitVec.ofNat 32 bs.length) bs)) ∧
    requestOf .offer ts = some (encode (.writePart (BitVec.ofNat 32 bs.length) bs))) ∧
  (∀ ts, requestOf .pop ts = requestOf .readAll ts) ∧
  requestOf .drain [] = some (encode (.readPart 0xFFFFFFFF#32)) ∧
  requestOf .status [] = some (encode (.rdreg .status)) ∧
  requestOf .level [] = some (encode (.rdreg .level))

/-! ### Steps and agents (00_scope R10, 60_exceptions R85) -/

/-- The step of the agent picked is the meaning of the command its request decodes to, on the state with the choice of
agent taken: an idle port accepts it, and a transfer in flight goes on (R10, R85). -/
def Obligations.StepRunsDecodedCommand : Prop :=
  ∀ (s : State) (p : Port) (rest : List Port) (r : Request) (i : Instr),
    s.pick = some (p, rest) → s.offered p = some r → decode p r = .ok i →
    step s = exec i { s with sched := rest, ticks := s.ticks + 1 }

/-- The step of an idle port whose request does not decode: the cause is raised with the whole word, or, once FAULTED,
the command is refused (R64, R85). -/
def Obligations.UndecodedWordFaultsOrIsRefused : Prop :=
  ∀ (s : State) (p : Port) (rest : List Port) (r : Request) (cause : Cause),
    s.pick = some (p, rest) → s.busy p = false → s.offered p = some r → decode p r = .error cause →
    (s.state ≠ .faulted →
      step s = .next (State.raise { s with sched := rest, ticks := s.ticks + 1 } cause p r.word)) ∧
    (s.state = .faulted → step s = .next (State.refuse { s with sched := rest, ticks := s.ticks + 1 } p))

/-- Any agent with an enabled step may take the next step: a schedule that begins with it makes it so (R10). The
schedule is the model's own way of saying which (log 2). -/
def Obligations.EveryEnabledAgentMayStep : Prop :=
  ∀ (s : State) (p : Port) (rest : List Port), s.enabled p = true →
    step { s with sched := p :: rest } = agentStep p { s with sched := rest, ticks := s.ticks + 1 }

/-- The model's placing of a table word (log 3): the very next step runs the command it decodes to. -/
def Obligations.PlacedWordRunsNext : Prop :=
  ∀ (s : State) (nbits w : Nat) (i : Instr), decodeTableWord nbits w = some i →
    step (s.withFetchWord nbits w) =
      exec i { s.withFetchWord nbits w with sched := s.sched, ticks := s.ticks + 1 }

/-- R111: a run ends in exactly the final states; it is stuck in exactly the other states in which no agent can step,
and in a state that meets the invariant those are FAULTED, with a frozen transfer or with every program done. -/
def Obligations.RunsEndFinalOrStuck : Prop :=
  ∀ s : State,
    let final := (∀ p, (s.io p).cp = (s.io p).program.length) ∧ s.prod.phase = .idle ∧ s.cons.phase = .idle ∧
      s.state ≠ .faulted ∧ s.faultCause = .none
    (step s = .fault .runEnded ↔ final) ∧
    (step s = .fault .stuck ↔ (∀ p, s.enabled p = false) ∧ ¬ final) ∧
    (Inv s → step s = .fault .stuck →
      s.state = .faulted ∧
        ((s.busy .prod = true ∨ s.busy .cons = true) ∨ ∀ p, (s.io p).cp = (s.io p).program.length))

/-- R109: an enabled step of an agent always completes, whatever the other ports do; so a step never ends in any other
way than a next state, the end of the run or a stuck state. -/
def Obligations.EnabledStepsComplete : Prop :=
  ∀ (s : State), Inv s →
    (∀ p, s.enabled p = true → ∃ t, agentStep p s = .next t) ∧
    ((∃ p, s.enabled p = true) → ∃ t, step s = .next t)

/-- R109: each step takes one off the bound of three steps a command, so every run of finite programs ends. -/
def Obligations.EveryStepConsumesWork : Prop :=
  ∀ s t : State, Inv s → step s = .next t → t.work < s.work

/-! ### Invariants -/

/-- Every step keeps the invariant of Safety.lean: canonical storage inside the capacity, a legal capacity, the
occupancy bound, the snapshots of transfers in flight, and one response per command (R13, R16, R31, R32, R49, R50). -/
def Obligations.StepKeepsInv : Prop :=
  ∀ s t : State, Inv s → step s = .next t → Inv t

/-- The invariant holds at reset and at the start of every run. -/
def Obligations.StartMeetsInv : Prop :=
  Inv State.reset ∧ ∀ k ctl prod cons sched, Inv (State.boot k ctl prod cons sched)

/-- R16, R31, R32, in every reachable state: the level is in [0, capacity], an UNCONFIGURED block has all three
registers 0 and both transfer ports idle, and an ACTIVE block's capacity is a power of two of at most MAX_CAPACITY,
which is at most 2^31, so it divides 2^32. -/
def Obligations.ReachableStatesAreOccupiedWithinCapacity : Prop :=
  ∀ s : State, Reachable s →
    (s.writeSeq - s.readSeq).toNat ≤ s.capacity.toNat ∧
    (s.state = .unconfigured →
      s.capacity = 0#32 ∧ s.readSeq = 0#32 ∧ s.writeSeq = 0#32 ∧ s.prod.phase = .idle ∧ s.cons.phase = .idle) ∧
    (s.state = .active →
      (∃ k, s.capacity.toNat = 2 ^ k) ∧ 1 ≤ s.capacity.toNat ∧ s.capacity.toNat ≤ s.maxCapacity.toNat ∧
        s.maxCapacity.toNat ≤ 2 ^ 31 ∧ s.capacity.toNat ∣ 2 ^ 32)

/-- Every command keeps the canonical form of storage, in every state (log 6). -/
def Obligations.ExecKeepsStorageCanonical : Prop :=
  ∀ (i : Instr) (s t : State), Memory.wf s.storage → exec i s = .next t → Memory.wf t.storage

/-! ### Reset (spec/70_reset_and_hazards.md, 10_state R30) -/

/-- R30, for every value of MAX_CAPACITY; `State.reset` is one of these states. Which one, and that no program is
loaded, are the model's (log 1, 3). -/
def Obligations.ResetLeavesTheStatedValues : Prop :=
  (∃ k, State.reset = State.resetWith k) ∧
  ∀ k : Fin 32,
    let s := State.resetWith k
    s.state = .unconfigured ∧ s.capacity = 0#32 ∧ s.readSeq = 0#32 ∧ s.writeSeq = 0#32 ∧
    (∀ o, s.physByte o = Config.storageDraw s.draws o) ∧
    s.prod.phase = .idle ∧ s.cons.phase = .idle ∧
    s.prod.len = 0#32 ∧ s.prod.ap = false ∧ s.prod.base = 0#32 ∧ s.prod.peer = 0#32 ∧ s.prod.n = 0#32 ∧
    s.prod.payload = [] ∧
    s.cons.len = 0#32 ∧ s.cons.ap = false ∧ s.cons.base = 0#32 ∧ s.cons.peer = 0#32 ∧ s.cons.n = 0#32 ∧
    s.cons.data = [] ∧
    s.faultCause.code = 0#8 ∧ s.faultPort.id = 0#2 ∧ s.faultCmd = 0#64 ∧
    (∀ p, (s.io p).cp = 0 ∧ s.offered p = none ∧ s.responseChannel p = none)

/-! ### CREATE and DESTROY (spec/40_lifecycle.md) -/

/-- CREATE of a legal size completes (R69): capacity, counters, STATE, every byte 0, the response, and the physical
bytes from the capacity on untouched. -/
def Obligations.CreateConfiguresTheBuffer : Prop :=
  ∀ (s : State) (size : U32), Inv s → s.state = .unconfigured → 1 ≤ size.toNat → size.toNat ≤ 2 ^ 31 →
    (roundupPow2 size).toNat ≤ s.maxCapacity.toNat →
    ∃ t, exec (.create size) s = .next t ∧
      t.capacity = roundupPow2 size ∧ t.readSeq = 0#32 ∧ t.writeSeq = 0#32 ∧ t.state = .active ∧
      (∀ o, o < t.capacity.toNat → t.memRead o = some 0#8) ∧
      (∀ o, t.capacity.toNat ≤ o → t.physByte o = s.physByte o) ∧
      t.ctlIo = { s.ctlIo with
        cp := s.ctlIo.cp + 1
        responses := s.ctlIo.responses ++ [⟨roundupPow2 size ++ 0#30 ++ 0#2, []⟩] }

/-- When CREATE faults instead, in R69's order: CREATE_ACTIVE, BAD_SIZE, ALLOC_FAIL. -/
def Obligations.CreateFaultsInOrder : Prop :=
  ∀ (s : State) (size : U32),
    (s.state = .active → exec (.create size) s = .next (s.raise .createActive .ctl (encodeWord (.create size)))) ∧
    (s.state = .unconfigured → size.toNat = 0 ∨ 2 ^ 31 < size.toNat →
      exec (.create size) s = .next (s.raise .badSize .ctl (encodeWord (.create size)))) ∧
    (s.state = .unconfigured → 1 ≤ size.toNat → size.toNat ≤ 2 ^ 31 →
      s.maxCapacity.toNat < (roundupPow2 size).toNat →
      exec (.create size) s = .next (s.raise .allocFail .ctl (encodeWord (.create size))))

/-- R70: the least power of two that is at least `s`; `s` itself when it is one, and otherwise
`2^(floor(log2(s)) + 1)`, which is less than `2s`; with the values the rule lists. -/
def Obligations.RoundupIsLeastPowerOfTwo : Prop :=
  (∀ s : U32, 1 ≤ s.toNat → s.toNat ≤ 2 ^ 31 →
    (∃ k, k ≤ 31 ∧ (roundupPow2 s).toNat = 2 ^ k) ∧ s.toNat ≤ (roundupPow2 s).toNat ∧
    (∀ j, s.toNat ≤ 2 ^ j → (roundupPow2 s).toNat ≤ 2 ^ j) ∧
    ((∃ j, s.toNat = 2 ^ j) → roundupPow2 s = s) ∧
    ((¬ ∃ j, s.toNat = 2 ^ j) →
      (roundupPow2 s).toNat = 2 ^ (Nat.log 2 s.toNat + 1) ∧ (roundupPow2 s).toNat < 2 * s.toNat)) ∧
  roundupPow2 1#32 = 1#32 ∧ roundupPow2 2#32 = 2#32 ∧ roundupPow2 3#32 = 4#32 ∧ roundupPow2 5#32 = 8#32 ∧
  roundupPow2 10#32 = 16#32 ∧ roundupPow2 16#32 = 16#32 ∧ roundupPow2 17#32 = 32#32 ∧
  roundupPow2 0x7FFFFFFF#32 = 0x80000000#32 ∧ roundupPow2 0x80000000#32 = 0x80000000#32

/-- DESTROY of an idle buffer completes (R71): STATE, capacity and counters, every physical byte a new draw (the draw's
number is the model's own, log 6), and the response. -/
def Obligations.DestroyReleasesTheBuffer : Prop :=
  ∀ s : State, s.state = .active → s.prod.phase = .idle → s.cons.phase = .idle →
    ∃ t, exec .destroy s = .next t ∧
      t.state = .unconfigured ∧ t.capacity = 0#32 ∧ t.readSeq = 0#32 ∧ t.writeSeq = 0#32 ∧
      (∀ o, t.physByte o = Config.storageDraw (s.draws + 1) o) ∧
      t.ctlIo = { s.ctlIo with
        cp := s.ctlIo.cp + 1
        responses := s.ctlIo.responses ++ [⟨0#32 ++ 0#30 ++ 0#2, []⟩] }

/-- When DESTROY faults instead, in R71's order: NOT_CONFIGURED, DESTROY_BUSY. -/
def Obligations.DestroyFaultsInOrder : Prop :=
  ∀ s : State,
    (s.state = .unconfigured → exec .destroy s = .next (s.raise .notConfigured .ctl (encodeWord .destroy))) ∧
    (s.state = .active → s.prod.phase ≠ .idle ∨ s.cons.phase ≠ .idle →
      exec .destroy s = .next (s.raise .destroyBusy .ctl (encodeWord .destroy)))

/-- R85, priority 7: a READ or WRITE accepted before CREATE faults with NOT_CONFIGURED. -/
def Obligations.TransfersNeedABuffer : Prop :=
  ∀ (s : State) (len : U32) (src : List Byte), s.state = .unconfigured →
    (s.prod.phase = .idle →
      exec (.writeAll len src) s = .next (s.raise .notConfigured .prod (encodeWord (.writeAll len src))) ∧
      exec (.writePart len src) s = .next (s.raise .notConfigured .prod (encodeWord (.writePart len src)))) ∧
    (s.cons.phase = .idle →
      exec (.readAll len) s = .next (s.raise .notConfigured .cons (encodeWord (.readAll len))) ∧
      exec (.readPart len) s = .next (s.raise .notConfigured .cons (encodeWord (.readPart len))))

/-! ### WRITE (spec/42_write.md) -/

/-- R77: SNAP of both WRITEs, with `empty = C -w (wb -w rp)`: the all-or-nothing no-op, or the snapshot and the clamp. -/
def Obligations.WriteSnapSnapshots : Prop :=
  ∀ (s : State) (len : U32) (src : List Byte), s.state = .active → s.prod.phase = .idle →
    let empty := s.capacity - (s.writeSeq - s.readSeq)
    let n := if len.toNat ≤ empty.toNat then len else empty
    exec (.writePart len src) s =
      .next { s with prod := ⟨.copy, len, true, src, s.writeSeq, s.readSeq, n⟩ } ∧
    (empty.toNat < len.toNat →
      exec (.writeAll len src) s = .next { s with prodIo := { s.prodIo with
        cp := s.prodIo.cp + 1
        responses := s.prodIo.responses ++ [⟨0#32 ++ 0#30 ++ 0#2, []⟩] } }) ∧
    (len.toNat ≤ empty.toNat →
      exec (.writeAll len src) s =
        .next { s with prod := ⟨.copy, len, false, src, s.writeSeq, s.readSeq, n⟩ })

/-- R78: COPY of both WRITEs stores the tail segment and then the wrap segment, leaves every other byte and every other
register, and goes to PUB. -/
def Obligations.WriteCopyStoresThePayload : Prop :=
  ∀ (s : State) (len : U32) (src : List Byte), Inv s → s.state ≠ .faulted → s.prod.phase = .copy →
    let off := (s.prod.base &&& (s.capacity - 1#32)).toNat
    let tail := min s.prod.n.toNat (s.capacity.toNat - off)
    let wrap := s.prod.n.toNat - tail
    ∃ t, exec (.writeAll len src) s = .next t ∧ exec (.writePart len src) s = .next t ∧
      t = { s with storage := t.storage, prod := { s.prod with phase := .pub } } ∧
      (∀ i, i < tail → t.memRead (off + i) = s.prod.payload[i]?) ∧
      (∀ i, i < wrap → t.memRead i = s.prod.payload[tail + i]?) ∧
      (∀ a, ¬ (off ≤ a ∧ a < off + tail) → ¬ a < wrap → t.memRead a = s.memRead a)

/-- R79: PUB of both WRITEs publishes `base +w n`, responds `n`, advances and goes idle; `write_seq` still equals
PROD.base when it runs. -/
def Obligations.WritePubPublishes : Prop :=
  ∀ (s : State) (len : U32) (src : List Byte), s.state ≠ .faulted → s.prod.phase = .pub →
    let t := { s with
      writeSeq := s.prod.base + s.prod.n
      prod := { s.prod with phase := .idle }
      prodIo := { s.prodIo with
        cp := s.prodIo.cp + 1
        responses := s.prodIo.responses ++ [⟨s.prod.n ++ 0#30 ++ 0#2, []⟩] } }
    exec (.writeAll len src) s = .next t ∧ exec (.writePart len src) s = .next t ∧
      (Inv s → s.writeSeq = s.prod.base)

/-- R76, its three steps together: a WRITE that is no all-or-nothing failure completes in three steps, with
`n = min(len, empty)` bytes appended to the buffered bytes, in order, and `n` returned. -/
def Obligations.WholeWriteAppends : Prop :=
  ∀ (s : State) (len : U32) (src : List Byte), Inv s → s.state = .active → s.prod.phase = .idle →
    src.length = len.toNat →
    let n := min len.toNat s.free.toNat
    let wrote (t : State) : Prop :=
      t.writeSeq = s.writeSeq + BitVec.ofNat 32 n ∧ t.readSeq = s.readSeq ∧ t.capacity = s.capacity ∧
      t.state = .active ∧ t.prod.phase = .idle ∧ t.cons = s.cons ∧
      t.queue = s.queue ++ src.take n ∧
      t.prodIo = { s.prodIo with
        cp := s.prodIo.cp + 1
        responses := s.prodIo.responses ++ [⟨BitVec.ofNat 32 n ++ 0#30 ++ 0#2, []⟩] }
    (∃ t, execTimes 3 (.writePart len src) s = .next t ∧ wrote t) ∧
    (len.toNat ≤ s.free.toNat → ∃ t, execTimes 3 (.writeAll len src) s = .next t ∧ wrote t)

/-! ### READ (spec/41_read.md) -/

/-- R73: SNAP of both READs, with `valid = wp -w rb`: the all-or-nothing no-op, or the snapshot and the clamp. -/
def Obligations.ReadSnapSnapshots : Prop :=
  ∀ (s : State) (len : U32), s.state = .active → s.cons.phase = .idle →
    let valid := s.writeSeq - s.readSeq
    let n := if len.toNat ≤ valid.toNat then len else valid
    exec (.readPart len) s =
      .next { s with cons := ⟨.copy, len, true, s.readSeq, s.writeSeq, n, s.cons.data⟩ } ∧
    (valid.toNat < len.toNat →
      exec (.readAll len) s = .next { s with consIo := { s.consIo with
        cp := s.consIo.cp + 1
        responses := s.consIo.responses ++ [⟨0#32 ++ 0#30 ++ 0#2, []⟩] } }) ∧
    (len.toNat ≤ valid.toNat →
      exec (.readAll len) s =
        .next { s with cons := ⟨.copy, len, false, s.readSeq, s.writeSeq, n, s.cons.data⟩ })

/-- R74: COPY of both READs takes the tail segment and then the wrap segment, does not modify storage, and goes to
PUB. -/
def Obligations.ReadCopyTakesTheSegments : Prop :=
  ∀ (s : State) (len : U32), Inv s → s.state ≠ .faulted → s.cons.phase = .copy →
    let off := (s.cons.base &&& (s.capacity - 1#32)).toNat
    let tail := min s.cons.n.toNat (s.capacity.toNat - off)
    let wrap := s.cons.n.toNat - tail
    ∃ data,
      exec (.readAll len) s = .next { s with cons := { s.cons with phase := .pub, data := data } } ∧
      exec (.readPart len) s = .next { s with cons := { s.cons with phase := .pub, data := data } } ∧
      data.length = tail + wrap ∧
      (∀ i, i < tail → data[i]? = s.memRead (off + i)) ∧
      (∀ i, i < wrap → data[tail + i]? = s.memRead i)

/-- R75: PUB of both READs publishes `base +w n`, responds `n` with the data, advances and goes idle; `read_seq` still
equals CONS.base when it runs. -/
def Obligations.ReadPubPublishes : Prop :=
  ∀ (s : State) (len : U32), s.state ≠ .faulted → s.cons.phase = .pub →
    let t := { s with
      readSeq := s.cons.base + s.cons.n
      cons := { s.cons with phase := .idle }
      consIo := { s.consIo with
        cp := s.consIo.cp + 1
        responses := s.consIo.responses ++ [⟨s.cons.n ++ 0#30 ++ 0#2, s.cons.data⟩] } }
    exec (.readAll len) s = .next t ∧ exec (.readPart len) s = .next t ∧ (Inv s → s.readSeq = s.cons.base)

/-- R72, its three steps together: a READ that is no all-or-nothing failure completes in three steps, with
`n = min(len, valid)` bytes taken from the front of the buffered bytes and returned, and storage unchanged. -/
def Obligations.WholeReadTakes : Prop :=
  ∀ (s : State) (len : U32), Inv s → s.state = .active → s.cons.phase = .idle →
    let n := min len.toNat s.level.toNat
    let took (t : State) : Prop :=
      t.readSeq = s.readSeq + BitVec.ofNat 32 n ∧ t.writeSeq = s.writeSeq ∧ t.capacity = s.capacity ∧
      t.state = .active ∧ t.cons.phase = .idle ∧ t.prod = s.prod ∧ t.storage = s.storage ∧
      t.queue = s.queue.drop n ∧
      t.consIo = { s.consIo with
        cp := s.consIo.cp + 1
        responses := s.consIo.responses ++ [⟨BitVec.ofNat 32 n ++ 0#30 ++ 0#2, s.queue.take n⟩] }
    (∃ t, execTimes 3 (.readPart len) s = .next t ∧ took t) ∧
    (len.toNat ≤ s.level.toNat → ∃ t, execTimes 3 (.readAll len) s = .next t ∧ took t)

/-- R38, E5: a known byte sequence written to an empty buffer and read back at once is byte-identical, at every offset,
the wrap point included. -/
def Obligations.WriteThenReadRoundTrips : Prop :=
  ∀ (s : State) (len : U32) (src : List Byte), Inv s → s.state = .active → s.prod.phase = .idle →
    s.cons.phase = .idle → s.writeSeq = s.readSeq → src.length = len.toNat → len.toNat ≤ s.capacity.toNat →
    ∃ t u, execTimes 3 (.writeAll len src) s = .next t ∧ execTimes 3 (.readAll len) t = .next u ∧
      u.consIo.responses = s.consIo.responses ++ [⟨len ++ 0#30 ++ 0#2, src⟩] ∧
      u.readSeq = s.readSeq + len ∧ u.writeSeq = u.readSeq

/-- R106: a transfer of length 0, and a partial one with nothing available, returns 0 and changes no counter, no byte
of storage, neither capacity nor STATE. -/
def Obligations.ZeroLengthTransfersDoNothing : Prop :=
  ∀ (s : State) (len : U32) (src : List Byte), Inv s → s.state = .active →
    let unchanged (t : State) : Prop :=
      t.state = s.state ∧ t.capacity = s.capacity ∧ t.readSeq = s.readSeq ∧ t.writeSeq = s.writeSeq ∧
      (∀ a, t.memRead a = s.memRead a)
    let writes (i : Instr) : Prop := ∃ t, execTimes 3 i s = .next t ∧ unchanged t ∧
      t.prodIo.responses = s.prodIo.responses ++ [⟨0#32 ++ 0#30 ++ 0#2, []⟩]
    let reads (i : Instr) : Prop := ∃ t, execTimes 3 i s = .next t ∧ unchanged t ∧
      t.consIo.responses = s.consIo.responses ++ [⟨0#32 ++ 0#30 ++ 0#2, []⟩]
    (s.prod.phase = .idle → writes (.writeAll 0#32 []) ∧ writes (.writePart 0#32 []) ∧
      (s.free = 0#32 → src.length = len.toNat → writes (.writePart len src))) ∧
    (s.cons.phase = .idle → reads (.readAll 0#32) ∧ reads (.readPart 0#32) ∧
      (s.level = 0#32 → reads (.readPart len)))

/-! ### RDREG and the register fields (spec/43_register_access.md, 10_state R24 to R26) -/

/-- R81: RDREG answers each register's value in every STATE, in an OK word of R63 (VALUE, 30 reserved bits 0, RSP 0);
with the invariant LEVEL is in [0, capacity] and LEVEL + FREE = CAPACITY. -/
def Obligations.RdregAnswersTheRegisterValue : Prop :=
  ∀ s : State,
    let answers (reg : Reg) (v : U32) : Prop :=
      exec (.rdreg reg) s = .next { s with ctlIo := { s.ctlIo with
        cp := s.ctlIo.cp + 1
        responses := s.ctlIo.responses ++ [⟨v ++ 0#30 ++ 0#2, []⟩] } }
    let bit (b : Bool) : BitVec 1 := BitVec.ofBool b
    answers .status (0#28 ++ bit (decide (s.cons.phase ≠ .idle)) ++ bit (decide (s.prod.phase ≠ .idle)) ++
      s.state.code) ∧
    answers .capacity s.capacity ∧ answers .readSeq s.readSeq ∧ answers .writeSeq s.writeSeq ∧
    answers .level (s.writeSeq - s.readSeq) ∧
    answers .free (s.capacity - (s.writeSeq - s.readSeq)) ∧
    answers .faultCause (0#22 ++ s.faultPort.id ++ s.faultCause.code) ∧
    answers .faultCmdLo (s.faultCmd.extractLsb' 0 32) ∧
    answers .faultCmdHi (s.faultCmd.extractLsb' 32 32) ∧
    answers .maxCapacity s.maxCapacity ∧
    (Inv s → (s.regval .level).toNat ≤ (s.regval .capacity).toNat ∧
      (s.regval .level).toNat + (s.regval .free).toNat = (s.regval .capacity).toNat)

/-- R25 and R26: the fields of STATUS and FAULT_CAUSE, their reserved bits 0, and both 0 at reset; with the numbers the
fields hold: STATE (10_state R12), the causes (60_exceptions R83) and the port ids (00_scope R7). -/
def Obligations.RegisterFieldsAreLaidOut : Prop :=
  (∀ s : State,
    (s.regval .status).extractLsb' 0 2 = s.state.code ∧ s.state.code.toNat ≤ 2 ∧
    (s.regval .status).getLsbD 2 = decide (s.prod.phase ≠ .idle) ∧
    (s.regval .status).getLsbD 3 = decide (s.cons.phase ≠ .idle) ∧
    (s.regval .status).extractLsb' 4 28 = 0#28 ∧
    (s.regval .faultCause).extractLsb' 0 8 = s.faultCause.code ∧
    (s.regval .faultCause).extractLsb' 8 2 = s.faultPort.id ∧
    (s.regval .faultCause).extractLsb' 10 22 = 0#22) ∧
  (∀ k, (State.resetWith k).regval .status = 0#32 ∧ (State.resetWith k).regval .faultCause = 0#32) ∧
  [Life.unconfigured, .active, .faulted].map Life.code = [0#2, 1#2, 2#2] ∧
  [Port.ctl, .prod, .cons].map Port.id = [0#2, 1#2, 2#2] ∧
  [Cause.none, .illegalOpcode, .wrongPort, .reservedField, .badReg, .badPayload, .notConfigured, .createActive,
    .destroyBusy, .badSize, .allocFail].map Cause.code =
      [0x00#8, 0x01#8, 0x02#8, 0x03#8, 0x04#8, 0x05#8, 0x06#8, 0x07#8, 0x08#8, 0x09#8, 0x0A#8]

/-! ### Faults (spec/60_exceptions.md) -/

/-- R86: what the fault entry does, and that nothing else changes. -/
def Obligations.FaultEntryRecordsTheCommand : Prop :=
  ∀ (s : State) (cause : Cause) (p : Port) (c : U64),
    let t := s.raise cause p c
    t = { s with
      state := .faulted, faultCause := cause, faultPort := p, faultCmd := c
      ctlIo := t.ctlIo, prodIo := t.prodIo, consIo := t.consIo } ∧
    t.io p = { s.io p with
      cp := (s.io p).cp + 1
      responses := (s.io p).responses ++ [⟨(0#22 ++ p.id ++ cause.code) ++ 0#30 ++ 1#2, []⟩] } ∧
    (∀ q, q ≠ p → t.io q = s.io q)

/-- R88: at an idle port of a FAULTED block a cleanly decoded RDREG is served; every other command gets RSP = FAULT
with FAULT_CAUSE and has no other effect. -/
def Obligations.FaultedBlockServesOnlyRdreg : Prop :=
  ∀ (s : State) (p : Port) (r : Request), s.state = .faulted → s.busy p = false → s.offered p = some r →
    (∀ reg, decode p r = .ok (.rdreg reg) →
      p = .ctl ∧ agentStep p s = .next { s with ctlIo := { s.ctlIo with
        cp := s.ctlIo.cp + 1
        responses := s.ctlIo.responses ++ [⟨s.regval reg ++ 0#30 ++ 0#2, []⟩] } }) ∧
    ((∀ reg, decode p r ≠ .ok (.rdreg reg)) →
      ∃ t, agentStep p s = .next t ∧
        t = { s with ctlIo := t.ctlIo, prodIo := t.prodIo, consIo := t.consIo } ∧
        t.io p = { s.io p with
          cp := (s.io p).cp + 1
          responses := (s.io p).responses ++ [⟨s.regval .faultCause ++ 0#30 ++ 1#2, []⟩] } ∧
        (∀ q, q ≠ p → t.io q = s.io q))

/-- R87: once FAULTED a transfer in flight has no enabled step, the state is not final, and no step of the machine moves
it, answers it or lets its port accept anything, or leaves FAULTED. -/
def Obligations.FaultFreezesTransfers : Prop :=
  ∀ (s : State) (p : Port), s.state = .faulted → s.busy p = true →
    s.enabled p = false ∧ step s ≠ .fault .runEnded ∧
    ∀ t, step s = .next t → t.io p = s.io p ∧ t.prod = s.prod ∧ t.cons = s.cons ∧ t.busy p = true ∧
      t.state = .faulted

/-- R91: no step of a FAULTED block changes a fault register, so they hold the first fault until reset. -/
def Obligations.FirstFaultIsKept : Prop :=
  ∀ s t : State, s.state = .faulted → step s = .next t →
    t.state = .faulted ∧ t.faultCause = s.faultCause ∧ t.faultPort = s.faultPort ∧ t.faultCmd = s.faultCmd

/-- R89: a step that enters FAULTED is the acceptance of a command at an idle port, and changes nothing but what R86
changes, with that command's own word recorded (R83): the state is as it was before the command. COPY and PUB steps enter no fault. -/
def Obligations.FaultsArePrecise : Prop :=
  (∀ s t : State, s.state ≠ .faulted → step s = .next t → t.state = .faulted →
    ∃ p rest r cause, s.pick = some (p, rest) ∧ s.busy p = false ∧ s.offered p = some r ∧ cause ≠ .none ∧
      t = State.raise { s with sched := rest, ticks := s.ticks + 1 } cause p r.word) ∧
  (∀ (s t : State) (p : Port), s.busy p = true → agentStep p s = .next t →
    t.state = s.state ∧ t.faultCause = s.faultCause ∧ t.faultPort = s.faultPort ∧ t.faultCmd = s.faultCmd)

/-- R12: STATE goes from UNCONFIGURED to ACTIVE by a CREATE, from ACTIVE to UNCONFIGURED by a DESTROY, to FAULTED by a
fault, never out of FAULTED by a step, and otherwise stays; it is UNCONFIGURED at reset. -/
def Obligations.StateMovesOnlyByLifecycleAndFaults : Prop :=
  (∀ s t : State, step s = .next t →
    t.state = s.state ∨
    (s.state ≠ .faulted ∧ t.state = .faulted ∧ t.faultCause ≠ .none) ∨
    (s.state = .unconfigured ∧ t.state = .active ∧
      ∃ r size, s.offered .ctl = some r ∧ decode .ctl r = .ok (.create size)) ∨
    (s.state = .active ∧ t.state = .unconfigured ∧
      ∃ r, s.offered .ctl = some r ∧ decode .ctl r = .ok .destroy)) ∧
  (∀ s t : State, s.state = .faulted → step s = .next t → t.state = .faulted) ∧
  (∀ s : State, s.state.code ≠ 3#2) ∧ ∀ k, (State.resetWith k).state = .unconfigured

/-! ### Who writes what (10_state R13 to R15, R21, R22, 60_exceptions R95) -/

/-- A step that changes `read_seq` is CONS's PUB, or a CREATE or DESTROY that sets it to 0; the same of `write_seq` and
PROD; one that changes `capacity` is a CREATE or a DESTROY (R13, R14, R15). -/
def Obligations.EachCounterHasOneWriter : Prop :=
  ∀ s t : State, step s = .next t →
    let lifecycle := (s.state = .unconfigured ∧ t.state = .active) ∨ (s.state = .active ∧ t.state = .unconfigured)
    (t.readSeq = s.readSeq ∨ (s.cons.phase = .pub ∧ t.cons.phase = .idle ∧ t.readSeq = s.cons.base + s.cons.n) ∨
      (lifecycle ∧ t.readSeq = 0#32)) ∧
    (t.writeSeq = s.writeSeq ∨ (s.prod.phase = .pub ∧ t.prod.phase = .idle ∧ t.writeSeq = s.prod.base + s.prod.n) ∨
      (lifecycle ∧ t.writeSeq = 0#32)) ∧
    (t.capacity = s.capacity ∨ lifecycle)

/-- An agent's step leaves the other ports, and the transfer registers of the other transfer port, as they were; no
step changes a program or MAX_CAPACITY (R19, R21, R22, R28, R95). -/
def Obligations.AgentsTouchOnlyTheirOwn : Prop :=
  ∀ (s t : State) (p : Port), agentStep p s = .next t →
    (∀ q, q ≠ p → t.io q = s.io q) ∧ (p ≠ .prod → t.prod = s.prod) ∧ (p ≠ .cons → t.cons = s.cons) ∧
    (∀ q, (t.io q).program = (s.io q).program) ∧ t.maxLog2 = s.maxLog2

/-! ### The indexer and the handshake (spec/20_memory.md) -/

/-- R35 and R36: for a transfer of `n <= C` bytes, the offsets of the tail segment and then of the wrap segment are, in
order, the offsets of `base +w i`; they lie in storage, and the two segments never overlap. -/
def Obligations.SegmentsAreThePerByteOffsets : Prop :=
  ∀ (c base n : U32) (k : Nat), c.toNat = 2 ^ k → n.toNat ≤ c.toNat →
    let g := segments c base n
    g.off = (base &&& (c - 1#32)).toNat ∧ g.tail = min n.toNat (c.toNat - g.off) ∧ g.wrap = n.toNat - g.tail ∧
    (List.range g.tail).map (fun i => g.off + i) ++ List.range g.wrap =
      (List.range n.toNat).map (fun i => (offsetOf c (base + BitVec.ofNat 32 i)).toNat) ∧
    g.wrap ≤ g.off ∧ g.off + g.tail ≤ c.toNat

/-- R37: the offset of a wrapped counter is the offset of the count, and the level of wrapped counters is exact while
it lies in [0, C]. -/
def Obligations.WraparoundDoesNotDisturbIndexing : Prop :=
  ∀ (c : U32) (k : Nat), c.toNat = 2 ^ k →
    (∀ count : Nat, (offsetOf c (BitVec.ofNat 32 count)).toNat = count % 2 ^ k) ∧
    (∀ written read : Nat, read ≤ written → written - read ≤ c.toNat →
      (BitVec.ofNat 32 written - BitVec.ofNat 32 read).toNat = written - read)

/-- R49: the bytes of a WRITE in flight and of a READ in flight have distinct offsets. -/
def Obligations.TransfersInFlightAreDisjoint : Prop :=
  ∀ s : State, Inv s → s.prod.phase ≠ .idle → s.cons.phase ≠ .idle →
    ∀ i j, i < s.prod.n.toNat → j < s.cons.n.toNat →
      (offsetOf s.capacity (s.prod.base + BitVec.ofNat 32 i)).toNat ≠
        (offsetOf s.capacity (s.cons.base + BitVec.ofNat 32 j)).toNat

/-- R45, R46: against an ideal queue of bytes. A step leaves the buffered bytes, appends the payload bytes of the WRITE
it publishes, removes from the front exactly the bytes the READ it publishes returns, or destroys the buffer. -/
def Obligations.StepsActOnAnIdealQueue : Prop :=
  ∀ s t : State, Inv s → step s = .next t →
    t.queue = s.queue ∨
    (s.prod.phase = .pub ∧ t.prod.phase = .idle ∧
      t.queue = s.queue ++ s.prod.payload.take s.prod.n.toNat) ∨
    (s.cons.phase = .pub ∧ t.cons.phase = .idle ∧ s.queue = s.cons.data ++ t.queue ∧
      t.consIo.responses = s.consIo.responses ++ [⟨s.cons.n ++ 0#30 ++ 0#2, s.cons.data⟩]) ∨
    (s.state = .active ∧ t.state = .unconfigured ∧ t.queue = [])

/-- R45, as the responses show it: counted from CREATE, what the WRITE responses say was written is what the READ
responses returned followed by what is buffered. A step other than a DESTROY keeps that. -/
def Obligations.FirstInFirstOut : Prop :=
  ∀ s t : State, Inv s → step s = .next t → ¬ (s.state = .active ∧ t.state = .unconfigured) →
    bytesWritten s.prodIo = bytesRead s.consIo ++ s.queue →
    bytesWritten t.prodIo = bytesRead t.consIo ++ t.queue

/-! ### Frames -/

/-- What CREATE and DESTROY leave: the transfer ports and their registers, the program, the fault registers unless they
fault, everything of the buffer if they fault or are refused, and, for a CREATE that succeeds, every byte it does not
zero. -/
def Obligations.LifecycleFrame : Prop :=
  ∀ (s t : State) (size : U32), Inv s → exec (.create size) s = .next t ∨ exec .destroy s = .next t →
    t.prod = s.prod ∧ t.cons = s.cons ∧ t.prodIo = s.prodIo ∧ t.consIo = s.consIo ∧
    t.ctlIo.program = s.ctlIo.program ∧ t.maxLog2 = s.maxLog2 ∧ t.sched = s.sched ∧ t.ticks = s.ticks ∧
    (t.state ≠ .faulted ∨ s.state = .faulted →
      t.faultCause = s.faultCause ∧ t.faultPort = s.faultPort ∧ t.faultCmd = s.faultCmd) ∧
    (t.state = .faulted →
      t.capacity = s.capacity ∧ t.readSeq = s.readSeq ∧ t.writeSeq = s.writeSeq ∧ t.draws = s.draws ∧
      ∀ a, t.memRead a = s.memRead a ∧ t.physByte a = s.physByte a) ∧
    (t.state = .active →
      t.draws = s.draws ∧
        ∀ a, t.capacity.toNat ≤ a → t.memRead a = s.memRead a ∧ t.physByte a = s.physByte a)

/-- What a step of WRITE.ALL and WRITE.PART leaves: the other ports, CONS's registers, `read_seq`, `capacity`; the fault
registers and STATE but for NOT_CONFIGURED; `write_seq` but at PUB; PROD's registers but the phase in COPY and PUB; and
every byte outside the two segments COPY stores to, all of storage in SNAP and PUB. -/
def Obligations.WriteFrame : Prop :=
  ∀ (s t : State) (len : U32) (src : List Byte),
    exec (.writeAll len src) s = .next t ∨ exec (.writePart len src) s = .next t →
    let g := segments s.capacity s.prod.base s.prod.n
    t.ctlIo = s.ctlIo ∧ t.consIo = s.consIo ∧ t.prodIo.program = s.prodIo.program ∧ t.cons = s.cons ∧
    t.readSeq = s.readSeq ∧ t.capacity = s.capacity ∧ t.maxLog2 = s.maxLog2 ∧ t.draws = s.draws ∧
    t.sched = s.sched ∧ t.ticks = s.ticks ∧
    (s.state ≠ .unconfigured ∨ s.prod.phase ≠ .idle →
      t.state = s.state ∧ t.faultCause = s.faultCause ∧ t.faultPort = s.faultPort ∧ t.faultCmd = s.faultCmd) ∧
    (s.prod.phase ≠ .pub → t.writeSeq = s.writeSeq) ∧
    (s.prod.phase ≠ .idle → t.prod = { s.prod with phase := t.prod.phase }) ∧
    (s.prod.phase = .idle → t.prod.phase = .idle → t.prod = s.prod) ∧
    (s.prod.phase ≠ .copy → ∀ a, t.memRead a = s.memRead a) ∧
    (s.prod.phase = .copy → ∀ a, ¬ (g.off ≤ a ∧ a < g.off + g.tail) → ¬ a < g.wrap → t.memRead a = s.memRead a)

/-- What a step of READ.ALL and READ.PART leaves: the other ports, PROD's registers, `write_seq`, `capacity`; all of
storage; the fault registers and STATE but for NOT_CONFIGURED; `read_seq` but at PUB; CONS's registers but the phase and
the data in COPY and PUB. -/
def Obligations.ReadFrame : Prop :=
  ∀ (s t : State) (len : U32), exec (.readAll len) s = .next t ∨ exec (.readPart len) s = .next t →
    t.ctlIo = s.ctlIo ∧ t.prodIo = s.prodIo ∧ t.consIo.program = s.consIo.program ∧ t.prod = s.prod ∧
    t.writeSeq = s.writeSeq ∧ t.capacity = s.capacity ∧ t.maxLog2 = s.maxLog2 ∧ t.draws = s.draws ∧
    t.sched = s.sched ∧ t.ticks = s.ticks ∧
    (∀ a, t.memRead a = s.memRead a ∧ t.physByte a = s.physByte a) ∧
    (s.state ≠ .unconfigured ∨ s.cons.phase ≠ .idle →
      t.state = s.state ∧ t.faultCause = s.faultCause ∧ t.faultPort = s.faultPort ∧ t.faultCmd = s.faultCmd) ∧
    (s.cons.phase ≠ .pub → t.readSeq = s.readSeq) ∧
    (s.cons.phase ≠ .idle → t.cons = { s.cons with phase := t.cons.phase, data := t.cons.data }) ∧
    (s.cons.phase = .pub → t.cons.data = s.cons.data) ∧
    (s.cons.phase = .idle → t.cons.phase = .idle → t.cons = s.cons)

/-- What RDREG leaves: everything but CTL's pointer and responses; no byte of storage (R80, 20_memory R41). -/
def Obligations.RdregFrame : Prop :=
  ∀ (s t : State) (reg : Reg), exec (.rdreg reg) s = .next t →
    t = { s with ctlIo := t.ctlIo } ∧ t.ctlIo.program = s.ctlIo.program ∧
    ∀ a, t.memRead a = s.memRead a ∧ t.physByte a = s.physByte a
end

