-- ==== Sys2Proof/Laws/Decode.lean ====
section
/-! SUPPORT. What a decoded command is (30_encoding R64): bound to its port, well formed, and never the cause NONE. -/

namespace Sys2Proof

/-- The port a decoded command is bound to is the one it came on (30_encoding R61). -/
theorem port_of_decode {p : Port} {r : Request} {i : Instr} (h : decode p r = .ok i) : i.port = p := by
  unfold decode at h
  split at h
  · cases h
  · rename_i op hop
    split_ifs at h with h1 h2
    have h1 := not_not.mp h1
    rw [← h1]
    cases op <;> simp only [decodeOperands] at h <;> (try split at h) <;> (try split at h) <;>
      (cases h <;> rfl)

/-- The decoder gives well-formed commands only (30_encoding R62). -/
theorem wellFormed_of_decode {p : Port} {r : Request} {i : Instr} (h : decode p r = .ok i) :
    i.wellFormed = true := by
  unfold decode at h
  split at h
  · cases h
  · rename_i op hop
    split_ifs at h with h1 h2
    cases op <;> simp only [decodeOperands] at h <;> (try split at h) <;> (try split at h) <;>
      (cases h <;> first | rfl | assumption)

/-- The decoder's causes are never NONE (60 R83). -/
theorem decode_ne_none (p : Port) (r : Request) : decode p r ≠ .error .none := by
  unfold decode
  split
  · simp
  · rename_i op _
    split_ifs
    · simp
    · simp
    · cases op <;> simp only [decodeOperands] <;> (try split) <;> simp

/-! ### The fields of a command word (30_encoding R54) -/

/-- The bits of a word made of fields. -/
theorem commandWord_bit (arg : U32) (reg : BitVec 8) (ap : BitVec 1) (opc : BitVec 4) (i : Nat) :
    (commandWord arg reg ap opc).getLsbD i =
      if i < 4 then opc.getLsbD i
      else if i < 5 then ap.getLsbD (i - 4)
      else if i < 16 then false
      else if i < 24 then reg.getLsbD (i - 16)
      else if i < 32 then false
      else arg.getLsbD (i - 32) := by
  have h : BitVec.getLsbD (w := 32 + 8 + 8 + 11 + 1 + 4) (arg ++ 0#8 ++ reg ++ 0#11 ++ ap ++ opc) i =
      if i < 4 then opc.getLsbD i
      else if i < 5 then ap.getLsbD (i - 4)
      else if i < 16 then false
      else if i < 24 then reg.getLsbD (i - 16)
      else if i < 32 then false
      else arg.getLsbD (i - 32) := by
    rw [BitVec.getLsbD_append, BitVec.getLsbD_append, BitVec.getLsbD_append, BitVec.getLsbD_append,
      BitVec.getLsbD_append]
    simp only [Nat.sub_sub, Nat.reduceAdd]
    by_cases h4 : i < 4
    · simp only [h4, if_true]
    by_cases h5 : i < 5
    · simp only [h4, h5, show i - 4 < 1 by omega, if_true, if_false]
    by_cases h16 : i < 16
    · simp only [h4, h5, h16, show ¬ i - 4 < 1 by omega, show i - 5 < 11 by omega, if_true, if_false,
        BitVec.getLsbD_zero]
    by_cases h24 : i < 24
    · simp only [h4, h5, h16, h24, show ¬ i - 4 < 1 by omega, show ¬ i - 5 < 11 by omega,
        show i - 16 < 8 by omega, if_true, if_false]
    by_cases h32 : i < 32
    · simp only [h4, h5, h16, h24, h32, show ¬ i - 4 < 1 by omega, show ¬ i - 5 < 11 by omega,
        show ¬ i - 16 < 8 by omega, show i - 24 < 8 by omega, if_true, if_false, BitVec.getLsbD_zero]
    · simp only [h4, h5, h16, h24, h32, show ¬ i - 4 < 1 by omega, show ¬ i - 5 < 11 by omega,
        show ¬ i - 16 < 8 by omega, show ¬ i - 24 < 8 by omega, if_false]
  exact h

@[simp] theorem opcField_commandWord (arg : U32) (reg : BitVec 8) (ap : BitVec 1) (opc : BitVec 4) :
    opcField (commandWord arg reg ap opc) = opc := by
  apply BitVec.eq_of_getLsbD_eq
  intro i hi
  simp only [opcField, BitVec.getLsbD_extractLsb', commandWord_bit, Nat.zero_add]
  simp [hi]

@[simp] theorem apField_commandWord (arg : U32) (reg : BitVec 8) (ap : BitVec 1) (opc : BitVec 4) :
    apField (commandWord arg reg ap opc) = ap := by
  apply BitVec.eq_of_getLsbD_eq
  intro i hi
  obtain rfl : i = 0 := by omega
  simp only [apField, BitVec.getLsbD_extractLsb', commandWord_bit]
  simp

@[simp] theorem rsvLowField_commandWord (arg : U32) (reg : BitVec 8) (ap : BitVec 1) (opc : BitVec 4) :
    rsvLowField (commandWord arg reg ap opc) = 0#11 := by
  apply BitVec.eq_of_getLsbD_eq
  intro i hi
  simp only [rsvLowField, BitVec.getLsbD_extractLsb', commandWord_bit, show ¬ 5 + i < 4 by omega,
    show ¬ 5 + i < 5 by omega, show 5 + i < 16 by omega, if_true, if_false]
  simp

@[simp] theorem regField_commandWord (arg : U32) (reg : BitVec 8) (ap : BitVec 1) (opc : BitVec 4) :
    regField (commandWord arg reg ap opc) = reg := by
  apply BitVec.eq_of_getLsbD_eq
  intro i hi
  simp only [regField, BitVec.getLsbD_extractLsb', commandWord_bit, show ¬ 16 + i < 4 by omega,
    show ¬ 16 + i < 5 by omega, show ¬ 16 + i < 16 by omega, show 16 + i < 24 by omega, if_true, if_false]
  simp [hi]

@[simp] theorem rsvHighField_commandWord (arg : U32) (reg : BitVec 8) (ap : BitVec 1) (opc : BitVec 4) :
    rsvHighField (commandWord arg reg ap opc) = 0#8 := by
  apply BitVec.eq_of_getLsbD_eq
  intro i hi
  simp only [rsvHighField, BitVec.getLsbD_extractLsb', commandWord_bit, show ¬ 24 + i < 4 by omega,
    show ¬ 24 + i < 5 by omega, show ¬ 24 + i < 16 by omega, show ¬ 24 + i < 24 by omega,
    show 24 + i < 32 by omega, if_true, if_false]
  simp

@[simp] theorem argField_commandWord (arg : U32) (reg : BitVec 8) (ap : BitVec 1) (opc : BitVec 4) :
    argField (commandWord arg reg ap opc) = arg := by
  apply BitVec.eq_of_getLsbD_eq
  intro i hi
  simp only [argField, BitVec.getLsbD_extractLsb', commandWord_bit, show ¬ 32 + i < 4 by omega,
    show ¬ 32 + i < 5 by omega, show ¬ 32 + i < 16 by omega, show ¬ 32 + i < 24 by omega,
    show ¬ 32 + i < 32 by omega, if_false]
  simp [hi]

/-- A word whose reserved bits are 0 is made of its other fields. -/
theorem commandWord_fields {c : U64} (h1 : rsvLowField c = 0#11) (h2 : rsvHighField c = 0#8) :
    commandWord (argField c) (regField c) (apField c) (opcField c) = c := by
  apply BitVec.eq_of_getLsbD_eq
  intro i hi
  rw [commandWord_bit]
  have hl : ∀ j, j < 11 → c.getLsbD (5 + j) = false := fun j hj => by
    have := congrArg (fun x => x.getLsbD j) h1
    simpa [rsvLowField, BitVec.getLsbD_extractLsb', hj] using this
  have hh : ∀ j, j < 8 → c.getLsbD (24 + j) = false := fun j hj => by
    have := congrArg (fun x => x.getLsbD j) h2
    simpa [rsvHighField, BitVec.getLsbD_extractLsb', hj] using this
  simp only [opcField, apField, regField, argField, BitVec.getLsbD_extractLsb']
  split_ifs with a b d e f
  · simp [a]
  · simp [show i - 4 < 1 by omega, show 4 + (i - 4) = i by omega]
  · have := hl (i - 5) (by omega)
    rw [show 5 + (i - 5) = i by omega] at this
    exact this.symm
  · simp [show i - 16 < 8 by omega, show 16 + (i - 16) = i by omega]
  · have := hh (i - 24) (by omega)
    rw [show 24 + (i - 24) = i by omega] at this
    exact this.symm
  · simp [show i - 32 < 32 by omega, show 32 + (i - 32) = i by omega]

/-! ### The numbers of the named things -/

@[simp] theorem Reg.ofIndex_index (r : Reg) : Reg.ofIndex? r.index = some r := by cases r <;> rfl

theorem Reg.index_of_ofIndex {x : BitVec 8} {r : Reg} (h : Reg.ofIndex? x = some r) : r.index = x := by
  unfold Reg.ofIndex? at h
  split at h <;> (cases h <;> (rename_i hx; exact BitVec.eq_of_toNat_eq (by rw [hx]; rfl)))

@[simp] theorem opcodeOf_opcodeBits (op : Opcode) : opcodeOf? (opcodeBits op) = some op := by cases op <;> rfl

theorem opcodeBits_of_opcodeOf {x : BitVec 4} {op : Opcode} (h : opcodeOf? x = some op) : opcodeBits op = x := by
  unfold opcodeOf? at h
  split at h <;> (cases h <;> (rename_i hx; exact BitVec.eq_of_toNat_eq (by rw [hx]; rfl)))

end Sys2Proof
end

