-- ==== Sys2Proof/Laws/Memory.lean ====
section
/-! SUPPORT. Storage: read after write, the canonical form kept by every memory operation, and one specification of
loading and of storing a run of bytes. -/

namespace Sys2Proof.Machine

/-! ### get and set -/

theorem Memory.get_eq_zero_of_lt {m : List Host.Cell} {a : Nat} (h : ∀ c ∈ m, a < c.1) : Memory.get m a = 0#8 := by
  induction m with
  | nil => rfl
  | cons c m ih =>
    have hc : a < c.1 := h c (by simp)
    simp only [Memory.get, if_neg (Nat.ne_of_lt hc)]
    exact ih (fun d hd => h d (by simp [hd]))

theorem Memory.wf_tail {c : Host.Cell} {m : List Host.Cell} (h : Memory.wf (c :: m)) : Memory.wf m :=
  ⟨(List.pairwise_cons.mp h.1).2, fun d hd => h.2 d (by simp [hd])⟩

theorem Memory.wf_head_lt {c : Host.Cell} {m : List Host.Cell} (h : Memory.wf (c :: m)) : ∀ d ∈ m, c.1 < d.1 :=
  (List.pairwise_cons.mp h.1).1

/-- Read after write: the byte written at `a`, every other byte as before. -/
theorem Memory.get_set {m : List Host.Cell} (h : Memory.wf m) (a b : Nat) (v : Byte) :
    Memory.get (Memory.set m a v) b = if b = a then v else Memory.get m b := by
  induction m with
  | nil =>
    by_cases hv : v = 0#8 <;> by_cases hb : b = a <;> simp [Memory.set, Memory.get, hv, hb]
  | cons c m ih =>
    obtain ⟨x, w⟩ := c
    have hlt : ∀ d ∈ m, x < d.1 := Memory.wf_head_lt h
    rcases Nat.lt_trichotomy a x with h1 | rfl | h1
    · have hz : Memory.get ((x, w) :: m) a = 0#8 := Memory.get_eq_zero_of_lt (fun d hd => by
        rcases List.mem_cons.mp hd with rfl | hd
        · exact h1
        · exact h1.trans (hlt d hd))
      simp only [Memory.set, if_pos h1]
      by_cases hv : v = 0#8 <;> by_cases hb : b = a
      · rw [if_pos hv, if_pos hb, hb, hz, hv]
      · rw [if_pos hv, if_neg hb]
      · rw [if_neg hv, if_pos hb, Memory.get, if_pos hb]
      · rw [if_neg hv, if_neg hb, Memory.get, if_neg hb]
    · have hz : Memory.get m a = 0#8 := Memory.get_eq_zero_of_lt hlt
      simp only [Memory.set, if_neg (Nat.lt_irrefl a), if_pos]
      by_cases hv : v = 0#8 <;> by_cases hb : b = a
      · rw [if_pos hv, if_pos hb, hb, hz, hv]
      · rw [if_pos hv, if_neg hb, Memory.get, if_neg hb]
      · rw [if_neg hv, if_pos hb, Memory.get, if_pos hb]
      · rw [if_neg hv, if_neg hb, Memory.get, if_neg hb, Memory.get, if_neg hb]
    · simp only [Memory.set, if_neg (Nat.lt_asymm h1), if_neg (Nat.ne_of_gt h1), Memory.get,
        ih (Memory.wf_tail h)]
      by_cases hb : b = a
      · simp [hb, Nat.ne_of_gt h1]
      · simp [hb]

/-- A write leaves every other byte, whatever the form of the cells. -/
theorem Memory.get_set_of_ne (m : List Host.Cell) {a b : Nat} (h : b ≠ a) (v : Byte) :
    Memory.get (Memory.set m a v) b = Memory.get m b := by
  induction m with
  | nil => by_cases hv : v = 0#8 <;> simp [Memory.set, Memory.get, hv, h]
  | cons c m ih =>
    obtain ⟨x, w⟩ := c
    simp only [Memory.set]
    by_cases h1 : a < x
    · rw [if_pos h1]
      by_cases hv : v = 0#8
      · rw [if_pos hv]
      · rw [if_neg hv, Memory.get, if_neg h]
    · rw [if_neg h1]
      by_cases h2 : a = x
      · subst h2
        rw [if_pos rfl, Memory.get, if_neg h]
        by_cases hv : v = 0#8
        · rw [if_pos hv]
        · rw [if_neg hv, Memory.get, if_neg h]
      · rw [if_neg h2, Memory.get, Memory.get, ih]

theorem Memory.mem_set {m : List Host.Cell} {a : Nat} {v : Byte} {c : Host.Cell}
    (h : c ∈ Memory.set m a v) : (c.1 = a ∧ c.2 = v ∧ v ≠ 0#8) ∨ c ∈ m := by
  induction m with
  | nil =>
    simp only [Memory.set] at h
    split at h
    · cases h
    · rename_i hv; simp only [List.mem_singleton] at h; subst h; exact .inl ⟨rfl, rfl, hv⟩
  | cons d m ih =>
    obtain ⟨x, w⟩ := d
    simp only [Memory.set] at h
    split_ifs at h with h1 h2 h3 h4
    · exact .inr h
    · rcases List.mem_cons.mp h with rfl | h
      · exact .inl ⟨rfl, rfl, h2⟩
      · exact .inr h
    · exact .inr (by simp [h])
    · rcases List.mem_cons.mp h with rfl | h
      · exact .inl ⟨rfl, rfl, h4⟩
      · exact .inr (by simp [h])
    · rcases List.mem_cons.mp h with rfl | h
      · exact .inr (by simp)
      · rcases ih h with h | h
        · exact .inl h
        · exact .inr (by simp [h])

/-- A write keeps the canonical form. -/
theorem Memory.wf_set {m : List Host.Cell} (h : Memory.wf m) (a : Nat) (v : Byte) : Memory.wf (Memory.set m a v) := by
  refine ⟨?_, fun c hc => ?_⟩
  · induction m with
    | nil => simp only [Memory.set]; split <;> simp
    | cons d m ih =>
      obtain ⟨x, w⟩ := d
      have hlt := Memory.wf_head_lt h
      have ht := (Memory.wf_tail h).1
      simp only [Memory.set]
      split_ifs with h1 h2 h3 h4
      · exact h.1
      · refine List.pairwise_cons.mpr ⟨fun c hc => ?_, h.1⟩
        rcases List.mem_cons.mp hc with rfl | hc
        · exact h1
        · have := hlt c hc; simp only at this ⊢; omega
      · exact ht
      · exact List.pairwise_cons.mpr ⟨fun c hc => by have := hlt c hc; simp only at this ⊢; omega, ht⟩
      · refine List.pairwise_cons.mpr ⟨fun c hc => ?_, ih (Memory.wf_tail h)⟩
        rcases Memory.mem_set hc with ⟨h5, -, -⟩ | hc
        · simp only [h5]; omega
        · exact hlt c hc
  · rcases Memory.mem_set hc with ⟨-, h2, h3⟩ | hc
    · rw [h2]; exact h3
    · exact h.2 c hc

/-! ### CREATE's zero fill -/

/-- The zero fill keeps the canonical form. -/
theorem Memory.wf_zeroBelow {m : List Host.Cell} (h : Memory.wf m) (c : Nat) : Memory.wf (Memory.zeroBelow c m) :=
  ⟨h.1.filter _, fun d hd => h.2 d (List.mem_of_mem_filter hd)⟩

/-- After the zero fill every byte below `c` is 0 and every other byte is as before. -/
theorem Memory.get_zeroBelow (m : List Host.Cell) (c a : Nat) :
    Memory.get (Memory.zeroBelow c m) a = if a < c then 0#8 else Memory.get m a := by
  induction m with
  | nil => simp [Memory.zeroBelow, Memory.get]
  | cons d m ih =>
    obtain ⟨x, w⟩ := d
    simp only [Memory.zeroBelow, List.filter_cons] at ih ⊢
    by_cases hx : c ≤ x
    · simp only [hx, decide_true, if_true, Memory.get, ih]
      by_cases ha : a = x
      · subst ha; simp [Nat.not_lt.mpr hx]
      · simp [ha]
    · simp only [hx, decide_false, Bool.false_eq_true, if_false, ih, Memory.get]
      by_cases ha : a = x
      · subst ha; simp [Nat.not_le.mp hx]
      · simp [ha]

theorem Memory.mem_zeroBelow {m : List Host.Cell} {c : Nat} {d : Host.Cell} (h : d ∈ Memory.zeroBelow c m) :
    d ∈ m ∧ c ≤ d.1 := by
  simpa [Memory.zeroBelow] using h

/-! ### Runs of bytes -/

/-- The cells after these bytes are written from offset `o` upwards. -/
def Memory.setList : List Host.Cell → Nat → List Byte → List Host.Cell
  | m, _, [] => m
  | m, o, b :: bs => Memory.setList (Memory.set m o b) (o + 1) bs

theorem Memory.wf_setList {m : List Host.Cell} (h : Memory.wf m) (o : Nat) (bs : List Byte) :
    Memory.wf (Memory.setList m o bs) := by
  induction bs generalizing m o with
  | nil => exact h
  | cons b bs ih => exact ih (Memory.wf_set h o b) (o + 1)

theorem Memory.get_setList {m : List Host.Cell} (h : Memory.wf m) (o : Nat) (bs : List Byte) (a : Nat) :
    Memory.get (Memory.setList m o bs) a =
      if o ≤ a ∧ a < o + bs.length then bs.getD (a - o) 0#8 else Memory.get m a := by
  induction bs generalizing m o with
  | nil =>
    simp only [Memory.setList, List.length_nil, Nat.add_zero]
    rw [if_neg (by omega)]
  | cons b bs ih =>
    simp only [Memory.setList, ih (Memory.wf_set h o b), Memory.get_set h, List.length_cons]
    by_cases h1 : a = o
    · subst h1; simp
    · by_cases h2 : o + 1 ≤ a ∧ a < o + 1 + bs.length
      · rw [if_pos h2, if_pos (by omega)]
        have : a - o = (a - (o + 1)) + 1 := by omega
        rw [this, List.getD_cons_succ]
      · rw [if_neg h2, if_neg h1, if_neg (by omega)]

/-- Storing a run leaves every byte outside it, whatever the form of the cells. -/
theorem Memory.get_setList_of_outside (m : List Host.Cell) (o : Nat) (bs : List Byte) {a : Nat}
    (h : a < o ∨ o + bs.length ≤ a) : Memory.get (Memory.setList m o bs) a = Memory.get m a := by
  induction bs generalizing m o with
  | nil => rfl
  | cons b bs ih =>
    simp only [List.length_cons] at h
    rw [Memory.setList, ih _ _ (by omega), Memory.get_set_of_ne _ (by omega)]

theorem Memory.mem_setList {m : List Host.Cell} {o : Nat} {bs : List Byte} {c : Host.Cell}
    (h : c ∈ Memory.setList m o bs) : (o ≤ c.1 ∧ c.1 < o + bs.length) ∨ c ∈ m := by
  induction bs generalizing m o with
  | nil => exact .inr h
  | cons b bs ih =>
    rcases ih h with h | h
    · exact .inl (by simp only [List.length_cons]; omega)
    · rcases Memory.mem_set h with ⟨h, -, -⟩ | h
      · exact .inl (by simp only [List.length_cons]; omega)
      · exact .inr h

/-- MemRead below `capacity` (R33). -/
theorem State.memRead_eq (s : State) (o : Nat) :
    s.memRead o = if o < s.capacity.toNat then some (Memory.get s.storage o) else none := by
  unfold State.memRead State.physByte
  split <;> rfl

/-- Everything `storeBytes` can do: the bytes are stored, and nothing else changes, when they all lie below
`capacity`; otherwise none. -/
theorem State.storeBytes_eq (s : State) (o : Nat) (bs : List Byte) :
    s.storeBytes o bs =
      if bs = [] ∨ o + bs.length ≤ s.capacity.toNat then
        some { s with storage := Memory.setList s.storage o bs } else none := by
  induction bs generalizing s o with
  | nil => simp [State.storeBytes, Memory.setList]
  | cons b bs ih =>
    simp only [State.storeBytes, State.memWrite]
    by_cases h : o < s.capacity.toNat
    · simp only [h, if_true, ih, Memory.setList, List.length_cons]
      by_cases hb : bs = []
      · subst hb; simp [Memory.setList, Nat.succ_le_of_lt h]
      · by_cases h2 : o + 1 + bs.length ≤ s.capacity.toNat
        · rw [if_pos (.inr h2), if_pos (.inr (by omega))]
        · rw [if_neg (by simp [hb, h2]), if_neg (by simp only [reduceCtorEq, false_or]; omega)]
    · simp only [h, if_false, List.length_cons]
      rw [if_neg (by simp only [reduceCtorEq, false_or]; omega)]

/-- Everything `loadBytes` can do: the `k` bytes from `o` upwards when they all lie below `capacity`; otherwise none. -/
theorem State.loadBytes_eq (s : State) (o k : Nat) :
    s.loadBytes o k =
      if k = 0 ∨ o + k ≤ s.capacity.toNat then
        some ((List.range k).map (fun i => Memory.get s.storage (o + i))) else none := by
  induction k generalizing o with
  | zero => simp [State.loadBytes]
  | succ k ih =>
    simp only [State.loadBytes, State.memRead_eq]
    by_cases h : o < s.capacity.toNat
    · simp only [h, if_true, ih]
      by_cases h2 : k = 0 ∨ o + 1 + k ≤ s.capacity.toNat
      · rw [if_pos h2, if_pos (by omega)]
        simp only [List.range_succ_eq_map, List.map_cons, List.map_map, Nat.add_zero]
        congr 2
        apply List.map_congr_left
        intro i _
        simp only [Function.comp_def, Nat.succ_eq_add_one]
        congr 1
        omega
      · rw [if_neg h2, if_neg (by omega)]
    · simp only [h, if_false]
      rw [if_neg (by omega)]

end Sys2Proof.Machine
end

