-- ==== Sys2Proof/Laws/Operands.lean ====
section
/-! SUPPORT. The indexer's arithmetic (20_memory R34 to R37), the clamp, and windows of storage. -/

namespace Sys2Proof.Machine

/-- R34: the offset is the sequence number modulo a power-of-two capacity. -/
theorem offsetOf_toNat {c : U32} {k : Nat} (hc : c.toNat = 2 ^ k) (seq : U32) :
    (offsetOf c seq).toNat = seq.toNat % c.toNat := by
  have h1 : 1 ≤ c.toNat := by rw [hc]; exact Nat.one_le_two_pow
  have h2 : (c - 1#32).toNat = 2 ^ k - 1 := by
    have := c.isLt
    rw [BitVec.toNat_sub, ← hc]
    simp only [BitVec.toNat_ofNat, Nat.reducePow, Nat.one_mod]
    omega
  rw [offsetOf, BitVec.toNat_and, h2, Nat.and_two_pow_sub_one_eq_mod, hc]

/-- The exponent of a 32-bit power of two. -/
theorem exponent_lt {c : U32} {k : Nat} (hc : c.toNat = 2 ^ k) : k < 32 := by
  have h := c.isLt
  rw [hc] at h
  exact (Nat.pow_lt_pow_iff_right (by norm_num)).mp h

/-- A power-of-two capacity divides 2^32 (10_state R32). -/
theorem pow_dvd_word {c : U32} {k : Nat} (hc : c.toNat = 2 ^ k) : c.toNat ∣ 2 ^ 32 := by
  rw [hc]; exact pow_dvd_pow 2 (exponent_lt hc).le

/-- R37, R36: the offset of the `i`-th byte of a transfer. -/
theorem offsetOf_add {c : U32} {k : Nat} (hc : c.toNat = 2 ^ k) (base : U32) (i : Nat) :
    (offsetOf c (base + BitVec.ofNat 32 i)).toNat = ((offsetOf c base).toNat + i) % c.toNat := by
  rw [offsetOf_toNat hc, offsetOf_toNat hc, BitVec.toNat_add, BitVec.toNat_ofNat,
    Nat.mod_mod_of_dvd _ (pow_dvd_word hc), Nat.add_mod, Nat.mod_mod_of_dvd _ (pow_dvd_word hc),
    ← Nat.add_mod, Nat.mod_add_mod]

/-- Offsets of sequence numbers less than a capacity apart are distinct (20_memory R49). -/
theorem offset_injective {c : U32} {k : Nat} (hc : c.toNat = 2 ^ k) (base : U32) {i j : Nat}
    (hi : i < c.toNat) (hj : j < c.toNat)
    (h : (offsetOf c (base + BitVec.ofNat 32 i)).toNat = (offsetOf c (base + BitVec.ofNat 32 j)).toNat) : i = j := by
  rw [offsetOf_add hc, offsetOf_add hc] at h
  have h2 : (offsetOf c base).toNat + i ≡ (offsetOf c base).toNat + j [MOD c.toNat] := h
  have h3 := Nat.ModEq.add_left_cancel' _ h2
  have h4 : i % c.toNat = j % c.toNat := h3
  rwa [Nat.mod_eq_of_lt hi, Nat.mod_eq_of_lt hj] at h4

/-- `min` as the clamp. -/
theorem clamp_toNat (a b : U32) : (clamp a b).toNat = min a.toNat b.toNat := by
  unfold clamp
  split <;> rename_i h <;> simp only [BitVec.le_def] at h <;> omega

theorem clamp_le_requested (a b : U32) : clamp a b ≤ a := by
  rw [BitVec.le_def, clamp_toNat]; omega

theorem clamp_le_available (a b : U32) : clamp a b ≤ b := by
  rw [BitVec.le_def, clamp_toNat]; omega

/-- A transfer that is no all-or-nothing failure moves all that was asked when `AP = 0`. -/
theorem clamp_of_all {a b : U32} (h : nothingMoves false a b = false) : clamp a b = a := by
  simp only [nothingMoves, Bool.not_false, Bool.true_and, decide_eq_false_iff_not, BitVec.lt_def] at h
  unfold clamp
  rw [if_pos]
  rw [BitVec.le_def]; omega

/-! ### Windows -/

@[simp] theorem State.window_length (s : State) (base : U32) (k : Nat) : (s.window base k).length = k := by
  simp [State.window]

@[simp] theorem State.window_zero (s : State) (base : U32) : s.window base 0 = [] := rfl

theorem State.window_congr {s t : State} {base : U32} {k : Nat}
    (h : ∀ i, i < k → t.byteAt (base + BitVec.ofNat 32 i) = s.byteAt (base + BitVec.ofNat 32 i)) :
    t.window base k = s.window base k := by
  apply List.map_congr_left
  intro i hi
  exact h i (List.mem_range.mp hi)

/-- A window is one window followed by the next. -/
theorem State.window_add (s : State) (base : U32) (j k : Nat) :
    s.window base (j + k) = s.window base j ++ s.window (base + BitVec.ofNat 32 j) k := by
  simp only [State.window, List.range_add, List.map_append, List.map_map]
  congr 1
  apply List.map_congr_left
  intro i _
  simp only [Function.comp_def]
  congr 1
  rw [BitVec.add_assoc]
  congr 1
  apply BitVec.eq_of_toNat_eq
  simp

theorem State.window_take (s : State) (base : U32) {j k : Nat} (h : j ≤ k) :
    (s.window base k).take j = s.window base j := by
  obtain ⟨d, rfl⟩ := Nat.exists_eq_add_of_le h
  rw [State.window_add]
  exact List.take_left' (by simp)

theorem State.window_drop (s : State) (base : U32) {j k : Nat} (h : j ≤ k) :
    (s.window base k).drop j = s.window (base + BitVec.ofNat 32 j) (k - j) := by
  obtain ⟨d, rfl⟩ := Nat.exists_eq_add_of_le h
  rw [State.window_add, List.drop_left' (by simp), Nat.add_sub_cancel_left]

end Sys2Proof.Machine
end

