-- ==== Sys2Proof/Laws/State.lean ====
section
/-! SUPPORT. One lemma per field per update, so that no later proof unfolds a record update. -/

namespace Sys2Proof.Machine

/-! ### setIo, respond, advance, answer: only the port changes -/

@[simp] theorem State.setIo_state (s : State) (p : Port) (x : PortIo) : (s.setIo p x).state = s.state := by
  cases p <;> rfl

@[simp] theorem State.setIo_capacity (s : State) (p : Port) (x : PortIo) : (s.setIo p x).capacity = s.capacity := by
  cases p <;> rfl

@[simp] theorem State.setIo_readSeq (s : State) (p : Port) (x : PortIo) : (s.setIo p x).readSeq = s.readSeq := by
  cases p <;> rfl

@[simp] theorem State.setIo_writeSeq (s : State) (p : Port) (x : PortIo) : (s.setIo p x).writeSeq = s.writeSeq := by
  cases p <;> rfl

@[simp] theorem State.setIo_storage (s : State) (p : Port) (x : PortIo) : (s.setIo p x).storage = s.storage := by
  cases p <;> rfl

@[simp] theorem State.setIo_prod (s : State) (p : Port) (x : PortIo) : (s.setIo p x).prod = s.prod := by
  cases p <;> rfl

@[simp] theorem State.setIo_cons (s : State) (p : Port) (x : PortIo) : (s.setIo p x).cons = s.cons := by
  cases p <;> rfl

@[simp] theorem State.setIo_faultCause (s : State) (p : Port) (x : PortIo) : (s.setIo p x).faultCause = s.faultCause := by
  cases p <;> rfl

@[simp] theorem State.setIo_faultPort (s : State) (p : Port) (x : PortIo) : (s.setIo p x).faultPort = s.faultPort := by
  cases p <;> rfl

@[simp] theorem State.setIo_faultCmd (s : State) (p : Port) (x : PortIo) : (s.setIo p x).faultCmd = s.faultCmd := by
  cases p <;> rfl

@[simp] theorem State.setIo_maxLog2 (s : State) (p : Port) (x : PortIo) : (s.setIo p x).maxLog2 = s.maxLog2 := by
  cases p <;> rfl

@[simp] theorem State.setIo_sched (s : State) (p : Port) (x : PortIo) : (s.setIo p x).sched = s.sched := by
  cases p <;> rfl

@[simp] theorem State.setIo_ticks (s : State) (p : Port) (x : PortIo) : (s.setIo p x).ticks = s.ticks := by
  cases p <;> rfl

@[simp] theorem State.setIo_draws (s : State) (p : Port) (x : PortIo) : (s.setIo p x).draws = s.draws := by
  cases p <;> rfl

@[simp] theorem State.io_setIo_self (s : State) (p : Port) (x : PortIo) : (s.setIo p x).io p = x := by
  cases p <;> rfl

theorem State.io_setIo_of_ne (s : State) {p q : Port} (h : q ≠ p) (x : PortIo) : (s.setIo p x).io q = s.io q := by
  cases p <;> cases q <;> first | rfl | exact absurd rfl h

/-- A port's record after a response: the response at the end, the pointer one further. -/
def PortIo.answered (x : PortIo) (a : Response) : PortIo :=
  { x with responses := x.responses ++ [a], cp := x.cp + 1 }

@[simp] theorem PortIo.answered_program (x : PortIo) (a : Response) : (x.answered a).program = x.program := rfl
@[simp] theorem PortIo.answered_cp (x : PortIo) (a : Response) : (x.answered a).cp = x.cp + 1 := rfl
@[simp] theorem PortIo.answered_responses (x : PortIo) (a : Response) :
    (x.answered a).responses = x.responses ++ [a] := rfl

/-- `answer` is one replacement of the port's record. -/
theorem State.answer_eq (s : State) (p : Port) (rsp : Rsp) (v : U32) (d : List Byte) :
    s.answer p rsp v d = s.setIo p ((s.io p).answered ⟨responseWord rsp v, d⟩) := by
  cases p <;> rfl

@[simp] theorem State.answer_state (s : State) (p : Port) (rsp : Rsp) (v : U32) (d : List Byte) :
    (s.answer p rsp v d).state = s.state := by
  cases p <;> rfl

@[simp] theorem State.answer_capacity (s : State) (p : Port) (rsp : Rsp) (v : U32) (d : List Byte) :
    (s.answer p rsp v d).capacity = s.capacity := by
  cases p <;> rfl

@[simp] theorem State.answer_readSeq (s : State) (p : Port) (rsp : Rsp) (v : U32) (d : List Byte) :
    (s.answer p rsp v d).readSeq = s.readSeq := by
  cases p <;> rfl

@[simp] theorem State.answer_writeSeq (s : State) (p : Port) (rsp : Rsp) (v : U32) (d : List Byte) :
    (s.answer p rsp v d).writeSeq = s.writeSeq := by
  cases p <;> rfl

@[simp] theorem State.answer_storage (s : State) (p : Port) (rsp : Rsp) (v : U32) (d : List Byte) :
    (s.answer p rsp v d).storage = s.storage := by
  cases p <;> rfl

@[simp] theorem State.answer_prod (s : State) (p : Port) (rsp : Rsp) (v : U32) (d : List Byte) :
    (s.answer p rsp v d).prod = s.prod := by
  cases p <;> rfl

@[simp] theorem State.answer_cons (s : State) (p : Port) (rsp : Rsp) (v : U32) (d : List Byte) :
    (s.answer p rsp v d).cons = s.cons := by
  cases p <;> rfl

@[simp] theorem State.answer_faultCause (s : State) (p : Port) (rsp : Rsp) (v : U32) (d : List Byte) :
    (s.answer p rsp v d).faultCause = s.faultCause := by
  cases p <;> rfl

@[simp] theorem State.answer_faultPort (s : State) (p : Port) (rsp : Rsp) (v : U32) (d : List Byte) :
    (s.answer p rsp v d).faultPort = s.faultPort := by
  cases p <;> rfl

@[simp] theorem State.answer_faultCmd (s : State) (p : Port) (rsp : Rsp) (v : U32) (d : List Byte) :
    (s.answer p rsp v d).faultCmd = s.faultCmd := by
  cases p <;> rfl

@[simp] theorem State.answer_maxLog2 (s : State) (p : Port) (rsp : Rsp) (v : U32) (d : List Byte) :
    (s.answer p rsp v d).maxLog2 = s.maxLog2 := by
  cases p <;> rfl

@[simp] theorem State.answer_sched (s : State) (p : Port) (rsp : Rsp) (v : U32) (d : List Byte) :
    (s.answer p rsp v d).sched = s.sched := by
  cases p <;> rfl

@[simp] theorem State.answer_ticks (s : State) (p : Port) (rsp : Rsp) (v : U32) (d : List Byte) :
    (s.answer p rsp v d).ticks = s.ticks := by
  cases p <;> rfl

@[simp] theorem State.answer_draws (s : State) (p : Port) (rsp : Rsp) (v : U32) (d : List Byte) :
    (s.answer p rsp v d).draws = s.draws := by
  cases p <;> rfl

@[simp] theorem State.answer_io_self (s : State) (p : Port) (rsp : Rsp) (v : U32) (d : List Byte) :
    (s.answer p rsp v d).io p = (s.io p).answered ⟨responseWord rsp v, d⟩ := by
  cases p <;> rfl

theorem State.answer_io_of_ne (s : State) {p q : Port} (h : q ≠ p) (rsp : Rsp) (v : U32) (d : List Byte) :
    (s.answer p rsp v d).io q = s.io q := by
  rw [State.answer_eq, State.io_setIo_of_ne s h]

/-- No answer touches any port's program. -/
@[simp] theorem State.answer_program (s : State) (p q : Port) (rsp : Rsp) (v : U32) (d : List Byte) :
    ((s.answer p rsp v d).io q).program = (s.io q).program := by
  cases p <;> cases q <;> rfl

/-! ### raise (R86) -/

@[simp] theorem State.raise_state (s : State) (k : Cause) (p : Port) (c : U64) :
    (s.raise k p c).state = .faulted := by cases p <;> rfl

@[simp] theorem State.raise_faultCause (s : State) (k : Cause) (p : Port) (c : U64) :
    (s.raise k p c).faultCause = k := by cases p <;> rfl

@[simp] theorem State.raise_faultPort (s : State) (k : Cause) (p : Port) (c : U64) :
    (s.raise k p c).faultPort = p := by cases p <;> rfl

@[simp] theorem State.raise_faultCmd (s : State) (k : Cause) (p : Port) (c : U64) :
    (s.raise k p c).faultCmd = c := by cases p <;> rfl

@[simp] theorem State.raise_capacity (s : State) (k : Cause) (p : Port) (c : U64) :
    (s.raise k p c).capacity = s.capacity := by cases p <;> rfl

@[simp] theorem State.raise_readSeq (s : State) (k : Cause) (p : Port) (c : U64) :
    (s.raise k p c).readSeq = s.readSeq := by cases p <;> rfl

@[simp] theorem State.raise_writeSeq (s : State) (k : Cause) (p : Port) (c : U64) :
    (s.raise k p c).writeSeq = s.writeSeq := by cases p <;> rfl

@[simp] theorem State.raise_storage (s : State) (k : Cause) (p : Port) (c : U64) :
    (s.raise k p c).storage = s.storage := by cases p <;> rfl

@[simp] theorem State.raise_prod (s : State) (k : Cause) (p : Port) (c : U64) :
    (s.raise k p c).prod = s.prod := by cases p <;> rfl

@[simp] theorem State.raise_cons (s : State) (k : Cause) (p : Port) (c : U64) :
    (s.raise k p c).cons = s.cons := by cases p <;> rfl

@[simp] theorem State.raise_maxLog2 (s : State) (k : Cause) (p : Port) (c : U64) :
    (s.raise k p c).maxLog2 = s.maxLog2 := by cases p <;> rfl

@[simp] theorem State.raise_sched (s : State) (k : Cause) (p : Port) (c : U64) :
    (s.raise k p c).sched = s.sched := by cases p <;> rfl

@[simp] theorem State.raise_ticks (s : State) (k : Cause) (p : Port) (c : U64) :
    (s.raise k p c).ticks = s.ticks := by cases p <;> rfl

@[simp] theorem State.raise_draws (s : State) (k : Cause) (p : Port) (c : U64) :
    (s.raise k p c).draws = s.draws := by cases p <;> rfl

@[simp] theorem State.raise_io_self (s : State) (k : Cause) (p : Port) (c : U64) :
    (s.raise k p c).io p = (s.io p).answered ⟨responseWord .fault (faultWord p k), []⟩ := by
  cases p <;> rfl

theorem State.raise_io_of_ne (s : State) {p q : Port} (h : q ≠ p) (k : Cause) (c : U64) :
    (s.raise k p c).io q = s.io q := by
  cases p <;> cases q <;> first | rfl | exact absurd rfl h

/-! ### refuse (R88) -/

@[simp] theorem State.refuse_state (s : State) (p : Port) : (s.refuse p).state = s.state := by cases p <;> rfl

@[simp] theorem State.refuse_capacity (s : State) (p : Port) : (s.refuse p).capacity = s.capacity := by cases p <;> rfl

@[simp] theorem State.refuse_readSeq (s : State) (p : Port) : (s.refuse p).readSeq = s.readSeq := by cases p <;> rfl

@[simp] theorem State.refuse_writeSeq (s : State) (p : Port) : (s.refuse p).writeSeq = s.writeSeq := by cases p <;> rfl

@[simp] theorem State.refuse_storage (s : State) (p : Port) : (s.refuse p).storage = s.storage := by cases p <;> rfl

@[simp] theorem State.refuse_prod (s : State) (p : Port) : (s.refuse p).prod = s.prod := by cases p <;> rfl

@[simp] theorem State.refuse_cons (s : State) (p : Port) : (s.refuse p).cons = s.cons := by cases p <;> rfl

@[simp] theorem State.refuse_faultCause (s : State) (p : Port) : (s.refuse p).faultCause = s.faultCause := by cases p <;> rfl

@[simp] theorem State.refuse_faultPort (s : State) (p : Port) : (s.refuse p).faultPort = s.faultPort := by cases p <;> rfl

@[simp] theorem State.refuse_faultCmd (s : State) (p : Port) : (s.refuse p).faultCmd = s.faultCmd := by cases p <;> rfl

@[simp] theorem State.refuse_maxLog2 (s : State) (p : Port) : (s.refuse p).maxLog2 = s.maxLog2 := by cases p <;> rfl

@[simp] theorem State.refuse_sched (s : State) (p : Port) : (s.refuse p).sched = s.sched := by cases p <;> rfl

@[simp] theorem State.refuse_ticks (s : State) (p : Port) : (s.refuse p).ticks = s.ticks := by cases p <;> rfl

@[simp] theorem State.refuse_draws (s : State) (p : Port) : (s.refuse p).draws = s.draws := by cases p <;> rfl

@[simp] theorem State.refuse_io_self (s : State) (p : Port) :
    (s.refuse p).io p = (s.io p).answered ⟨responseWord .fault s.faultReg, []⟩ := by
  cases p <;> rfl

theorem State.refuse_io_of_ne (s : State) {p q : Port} (h : q ≠ p) : (s.refuse p).io q = s.io q := by
  cases p <;> cases q <;> first | rfl | exact absurd rfl h

/-! ### fence, consume -/

@[simp] theorem fence_eq (s : State) : fence s = s := rfl

@[simp] theorem State.consume_state (s : State) (rest : List Port) : (s.consume rest).state = s.state := rfl

@[simp] theorem State.consume_capacity (s : State) (rest : List Port) : (s.consume rest).capacity = s.capacity := rfl

@[simp] theorem State.consume_readSeq (s : State) (rest : List Port) : (s.consume rest).readSeq = s.readSeq := rfl

@[simp] theorem State.consume_writeSeq (s : State) (rest : List Port) : (s.consume rest).writeSeq = s.writeSeq := rfl

@[simp] theorem State.consume_storage (s : State) (rest : List Port) : (s.consume rest).storage = s.storage := rfl

@[simp] theorem State.consume_prod (s : State) (rest : List Port) : (s.consume rest).prod = s.prod := rfl

@[simp] theorem State.consume_cons (s : State) (rest : List Port) : (s.consume rest).cons = s.cons := rfl

@[simp] theorem State.consume_faultCause (s : State) (rest : List Port) : (s.consume rest).faultCause = s.faultCause := rfl

@[simp] theorem State.consume_faultPort (s : State) (rest : List Port) : (s.consume rest).faultPort = s.faultPort := rfl

@[simp] theorem State.consume_faultCmd (s : State) (rest : List Port) : (s.consume rest).faultCmd = s.faultCmd := rfl

@[simp] theorem State.consume_maxLog2 (s : State) (rest : List Port) : (s.consume rest).maxLog2 = s.maxLog2 := rfl

@[simp] theorem State.consume_sched (s : State) (rest : List Port) : (s.consume rest).sched = rest := rfl

@[simp] theorem State.consume_ticks (s : State) (rest : List Port) : (s.consume rest).ticks = s.ticks + 1 := rfl

@[simp] theorem State.consume_draws (s : State) (rest : List Port) : (s.consume rest).draws = s.draws := rfl

@[simp] theorem State.consume_io (s : State) (rest : List Port) (p : Port) : (s.consume rest).io p = s.io p := by
  cases p <;> rfl

@[simp] theorem State.consume_busy (s : State) (rest : List Port) (p : Port) : (s.consume rest).busy p = s.busy p := by
  cases p <;> rfl

@[simp] theorem State.consume_offered (s : State) (rest : List Port) (p : Port) :
    (s.consume rest).offered p = s.offered p := by
  cases p <;> rfl

/-! ### configure (R69), release (R71) -/

@[simp] theorem State.configure_state (s : State) (c : U32) : (s.configure c).state = .active := rfl

@[simp] theorem State.configure_capacity (s : State) (c : U32) : (s.configure c).capacity = c := rfl

@[simp] theorem State.configure_readSeq (s : State) (c : U32) : (s.configure c).readSeq = 0#32 := rfl

@[simp] theorem State.configure_writeSeq (s : State) (c : U32) : (s.configure c).writeSeq = 0#32 := rfl

@[simp] theorem State.configure_storage (s : State) (c : U32) : (s.configure c).storage = Memory.zeroBelow c.toNat s.storage := rfl

@[simp] theorem State.configure_prod (s : State) (c : U32) : (s.configure c).prod = s.prod := rfl

@[simp] theorem State.configure_cons (s : State) (c : U32) : (s.configure c).cons = s.cons := rfl

@[simp] theorem State.configure_faultCause (s : State) (c : U32) : (s.configure c).faultCause = s.faultCause := rfl

@[simp] theorem State.configure_faultPort (s : State) (c : U32) : (s.configure c).faultPort = s.faultPort := rfl

@[simp] theorem State.configure_faultCmd (s : State) (c : U32) : (s.configure c).faultCmd = s.faultCmd := rfl

@[simp] theorem State.configure_maxLog2 (s : State) (c : U32) : (s.configure c).maxLog2 = s.maxLog2 := rfl

@[simp] theorem State.configure_sched (s : State) (c : U32) : (s.configure c).sched = s.sched := rfl

@[simp] theorem State.configure_ticks (s : State) (c : U32) : (s.configure c).ticks = s.ticks := rfl

@[simp] theorem State.configure_draws (s : State) (c : U32) : (s.configure c).draws = s.draws := rfl

@[simp] theorem State.configure_io (s : State) (c : U32) (p : Port) : (s.configure c).io p = s.io p := by cases p <;> rfl

@[simp] theorem State.release_state (s : State) : s.release.state = .unconfigured := rfl

@[simp] theorem State.release_capacity (s : State) : s.release.capacity = 0#32 := rfl

@[simp] theorem State.release_readSeq (s : State) : s.release.readSeq = 0#32 := rfl

@[simp] theorem State.release_writeSeq (s : State) : s.release.writeSeq = 0#32 := rfl

@[simp] theorem State.release_storage (s : State) : s.release.storage = [] := rfl

@[simp] theorem State.release_prod (s : State) : s.release.prod = s.prod := rfl

@[simp] theorem State.release_cons (s : State) : s.release.cons = s.cons := rfl

@[simp] theorem State.release_faultCause (s : State) : s.release.faultCause = s.faultCause := rfl

@[simp] theorem State.release_faultPort (s : State) : s.release.faultPort = s.faultPort := rfl

@[simp] theorem State.release_faultCmd (s : State) : s.release.faultCmd = s.faultCmd := rfl

@[simp] theorem State.release_maxLog2 (s : State) : s.release.maxLog2 = s.maxLog2 := rfl

@[simp] theorem State.release_sched (s : State) : s.release.sched = s.sched := rfl

@[simp] theorem State.release_ticks (s : State) : s.release.ticks = s.ticks := rfl

@[simp] theorem State.release_draws (s : State) : s.release.draws = s.draws + 1 := rfl

@[simp] theorem State.release_io (s : State) (p : Port) : s.release.io p = s.io p := by cases p <;> rfl

end Sys2Proof.Machine
end

