-- ==== Sys2Proof/Laws/Transfer.lean ====
section
/-! SUPPORT. One specification of each COPY step (41_read R74, 42_write R78): what it answers and which bytes it reads
or stores, by the per-byte form of 20_memory R36. -/

namespace Sys2Proof.Machine

/-! ### The split (R35) -/

theorem segments_sum (c base n : U32) : (segments c base n).tail + (segments c base n).wrap = n.toNat := by
  simp only [segments]; omega

/-- The offset is inside a power-of-two capacity. -/
theorem segments_off_lt {c : U32} {k : Nat} (hc : c.toNat = 2 ^ k) (base n : U32) : (segments c base n).off < c.toNat := by
  simp only [segments, offsetOf_toNat hc]
  exact Nat.mod_lt _ (by rw [hc]; positivity)

/-- Both segments lie in storage when no more than a capacity moves. -/
theorem segments_inside {c : U32} {k : Nat} (hc : c.toNat = 2 ^ k) (base : U32) {n : U32} (hn : n ≤ c) :
    (segments c base n).off + (segments c base n).tail ≤ c.toNat ∧ (segments c base n).wrap ≤ (segments c base n).off := by
  have h := segments_off_lt hc base n
  rw [BitVec.le_def] at hn
  simp only [segments] at h ⊢
  omega

/-- R36: where the `i`-th byte of a transfer lies. -/
theorem segments_offset {c : U32} {k : Nat} (hc : c.toNat = 2 ^ k) (base : U32) {n : U32} (hn : n ≤ c) {i : Nat}
    (hi : i < n.toNat) :
    (offsetOf c (base + BitVec.ofNat 32 i)).toNat =
      if i < (segments c base n).tail then (segments c base n).off + i else i - (segments c base n).tail := by
  have h := segments_off_lt hc base n
  rw [BitVec.le_def] at hn
  rw [offsetOf_add hc]
  by_cases ht : i < (segments c base n).tail
  · rw [if_pos ht]
    simp only [segments] at h ht ⊢
    exact Nat.mod_eq_of_lt (by omega)
  · rw [if_neg ht]
    simp only [segments] at h ht ⊢
    rw [Nat.mod_eq_sub_mod (by omega), Nat.mod_eq_of_lt (by omega)]
    omega

/-! ### READ's COPY -/

/-- READ's COPY, when no more than a power-of-two capacity moves: the data are the bytes from CONS.base on. -/
theorem readCopy_eq {s : State} {k : Nat} (hf : s.state ≠ .faulted) (hc : s.capacity.toNat = 2 ^ k)
    (hn : s.cons.n ≤ s.capacity) :
    readCopy s =
      .next { s with cons := { s.cons with phase := .pub, data := s.window s.cons.base s.cons.n.toNat } } := by
  have hin := segments_inside hc s.cons.base hn
  have hoff := segments_off_lt hc s.cons.base s.cons.n
  have hsum := segments_sum s.capacity s.cons.base s.cons.n
  simp only [readCopy, if_neg hf, State.loadBytes_eq, fence_eq]
  rw [if_pos (.inr hin.1), if_pos (.inr (by omega))]
  simp only
  congr 3
  rw [State.window, ← hsum, List.range_add, List.map_append, List.map_map]
  congr 1
  · apply List.map_congr_left
    intro i hi
    have hi := List.mem_range.mp hi
    rw [State.byteAt, segments_offset hc _ hn (by omega), if_pos hi]
  · apply List.map_congr_left
    intro i hi
    have hi := List.mem_range.mp hi
    simp only [Function.comp_def]
    rw [State.byteAt, segments_offset hc _ hn (by omega), if_neg (by omega)]
    congr 1; omega

/-- All that READ's COPY can do when it answers a next state: it fills CONS.data and goes to PUB. -/
theorem readCopy_next {s t : State} (h : readCopy s = .next t) :
    s.state ≠ .faulted ∧ ∃ data, t = { s with cons := { s.cons with phase := .pub, data := data } } := by
  simp only [readCopy, fence_eq] at h
  split at h
  · cases h
  · rename_i hf
    split at h
    · cases h
    · split at h
      · cases h
      · cases h; exact ⟨hf, _, rfl⟩

/-! ### WRITE's COPY -/

/-- The cells after WRITE's COPY. -/
def State.copied (s : State) : List Host.Cell :=
  let g := segments s.capacity s.prod.base s.prod.n
  Memory.setList (Memory.setList s.storage g.off (s.prod.payload.take g.tail)) 0
    ((s.prod.payload.drop g.tail).take g.wrap)

/-- WRITE's COPY, when no more than a power-of-two capacity moves and the payload has the bytes. -/
theorem writeCopy_eq {s : State} {k : Nat} (hf : s.state ≠ .faulted) (hc : s.capacity.toNat = 2 ^ k)
    (hn : s.prod.n ≤ s.capacity) (hp : s.prod.n.toNat ≤ s.prod.payload.length) :
    writeCopy s = .next { s with storage := s.copied, prod := { s.prod with phase := .pub } } := by
  have hin := segments_inside hc s.prod.base hn
  have hoff := segments_off_lt hc s.prod.base s.prod.n
  have hsum := segments_sum s.capacity s.prod.base s.prod.n
  simp only [writeCopy, if_neg hf, if_neg (Nat.not_lt.mpr hp), State.storeBytes_eq, fence_eq]
  rw [if_pos (.inr (by simp only [List.length_take]; omega))]
  simp only
  rw [if_pos (.inr (by simp only [List.length_take]; omega))]
  rfl

/-- All that WRITE's COPY can do when it answers a next state: it stores the two segments and goes to PUB. -/
theorem writeCopy_next {s t : State} (h : writeCopy s = .next t) :
    s.state ≠ .faulted ∧ t = { s with storage := s.copied, prod := { s.prod with phase := .pub } } := by
  simp only [writeCopy, State.storeBytes_eq, fence_eq] at h
  split at h
  · cases h
  · rename_i hf
    split at h
    · cases h
    · split at h
      · cases h
      · rename_i t₁ h₁
        split at h₁
        · cases h₁
          split at h
          · cases h
          · rename_i t₂ h₂
            split at h₂
            · cases h₂; cases h; exact ⟨hf, rfl⟩
            · cases h₂
        · cases h₁

/-- COPY keeps the canonical form. -/
theorem State.copied_wf {s : State} (h : Memory.wf s.storage) : Memory.wf s.copied :=
  Memory.wf_setList (Memory.wf_setList h _ _) _ _

/-- Every byte after WRITE's COPY: byte `i` of the payload at the offset of `base +w i` for `i < n`, every other byte
as before. -/
theorem State.get_copied {s : State} {k : Nat} (hm : Memory.wf s.storage) (hc : s.capacity.toNat = 2 ^ k)
    (hn : s.prod.n ≤ s.capacity) (hp : s.prod.n.toNat ≤ s.prod.payload.length) :
    (∀ i, i < s.prod.n.toNat →
      Memory.get s.copied (offsetOf s.capacity (s.prod.base + BitVec.ofNat 32 i)).toNat = s.prod.payload.getD i 0#8) ∧
    (∀ a, (∀ i, i < s.prod.n.toNat → a ≠ (offsetOf s.capacity (s.prod.base + BitVec.ofNat 32 i)).toNat) →
      Memory.get s.copied a = Memory.get s.storage a) := by
  have hin := segments_inside hc s.prod.base hn
  have hoff := segments_off_lt hc s.prod.base s.prod.n
  have hsum := segments_sum s.capacity s.prod.base s.prod.n
  have hoffset := fun i (hi : i < s.prod.n.toNat) => segments_offset hc s.prod.base hn hi
  have hget : ∀ a, Memory.get s.copied a = _ := fun a => by
    rw [State.copied, Memory.get_setList (Memory.wf_setList hm _ _), Memory.get_setList hm]
  generalize segments s.capacity s.prod.base s.prod.n = g at *
  have h1 : (s.prod.payload.take g.tail).length = g.tail := by simp only [List.length_take]; omega
  have h2 : ((s.prod.payload.drop g.tail).take g.wrap).length = g.wrap := by
    simp only [List.length_take, List.length_drop]; omega
  simp only [h1, h2, Nat.zero_le, true_and, Nat.zero_add, Nat.sub_zero] at hget
  refine ⟨fun i hi => ?_, fun a ha => ?_⟩
  · rw [hget, hoffset i hi]
    by_cases hit : i < g.tail
    · simp only [if_pos hit]
      rw [if_neg (by omega), if_pos (by omega), Nat.add_sub_cancel_left]
      simp [List.getD_eq_getElem?_getD, hit]
    · simp only [if_neg hit]
      rw [if_pos (by omega)]
      simp only [List.getD_eq_getElem?_getD, List.getElem?_take, List.getElem?_drop]
      rw [if_pos (by omega)]
      congr 2; omega
  · rw [hget]
    rw [if_neg, if_neg]
    · intro h
      refine ha (a - g.off) (by omega) ?_
      rw [hoffset _ (by omega), if_pos (by omega)]; omega
    · intro h
      refine ha (g.tail + a) (by omega) ?_
      rw [hoffset _ (by omega), if_neg (by omega)]; omega

/-- COPY stores below `capacity` only. -/
theorem State.copied_addresses {s : State} {k : Nat} (hc : s.capacity.toNat = 2 ^ k) (hn : s.prod.n ≤ s.capacity)
    (h : ∀ c ∈ s.storage, c.1 < s.capacity.toNat) : ∀ c ∈ s.copied, c.1 < s.capacity.toNat := by
  have hin := segments_inside hc s.prod.base hn
  have hoff := segments_off_lt hc s.prod.base s.prod.n
  intro c hm
  rcases Memory.mem_setList hm with hm | hm
  · simp only [List.length_take] at hm; omega
  rcases Memory.mem_setList hm with hm | hm
  · simp only [List.length_take] at hm; omega
  · exact h c hm

/-- After WRITE's COPY the `n` bytes from PROD.base on are the payload's first `n`. -/
theorem State.window_copied {s : State} {k : Nat} (hm : Memory.wf s.storage) (hc : s.capacity.toNat = 2 ^ k)
    (hn : s.prod.n ≤ s.capacity) (hp : s.prod.n.toNat ≤ s.prod.payload.length) (p : ProdRegs) :
    State.window { s with storage := s.copied, prod := p } s.prod.base s.prod.n.toNat
      = s.prod.payload.take s.prod.n.toNat := by
  apply List.ext_getElem
  · simp only [State.window_length, List.length_take]; omega
  · intro i h1 h2
    simp only [State.window_length] at h1
    simp only [State.window, List.getElem_map, List.getElem_range, State.byteAt, List.getElem_take]
    rw [(State.get_copied hm hc hn hp).1 i h1]
    simp [List.getD_eq_getElem?_getD, List.getElem?_eq_getElem (show i < s.prod.payload.length by omega)]

end Sys2Proof.Machine
end

