-- ==== Sys2Proof/Laws/Meanings.lean ====
section
/-! SUPPORT. What the shared steps answer, each as one equation, and the values the register words hold. -/

namespace Sys2Proof.Machine

/-- SNAP of a WRITE (42_write R77). -/
theorem writeSnap_eq (ap : Bool) (len : U32) (src : List Byte) (s : State) :
    writeSnap ap len src s =
      if nothingMoves ap len s.free then s.answer .prod .ok 0#32 []
      else { s with prod := ⟨.copy, len, ap, src, s.writeSeq, s.readSeq, clamp len s.free⟩ } := rfl

/-- SNAP of a READ (41_read R73). -/
theorem readSnap_eq (ap : Bool) (len : U32) (s : State) :
    readSnap ap len s =
      if nothingMoves ap len s.level then s.answer .cons .ok 0#32 []
      else { s with cons := ⟨.copy, len, ap, s.readSeq, s.writeSeq, clamp len s.level, s.cons.data⟩ } := rfl

/-- PUB of a WRITE (42_write R79). -/
theorem writePub_eq {s : State} (h : s.state ≠ .faulted) :
    writePub s =
      .next (State.answer { s with writeSeq := s.prod.base + s.prod.n, prod := { s.prod with phase := .idle } }
        .prod .ok s.prod.n []) := by
  simp only [writePub, if_neg h]

/-- PUB of a READ (41_read R75). -/
theorem readPub_eq {s : State} (h : s.state ≠ .faulted) :
    readPub s =
      .next (State.answer { s with readSeq := s.cons.base + s.cons.n, cons := { s.cons with phase := .idle } }
        .cons .ok s.cons.n s.cons.data) := by
  simp only [readPub, if_neg h]

theorem State.not_busy_prod {s : State} : s.busy .prod = false ↔ s.prod.phase = .idle := by simp [State.busy]

theorem State.not_busy_cons {s : State} : s.busy .cons = false ↔ s.cons.phase = .idle := by simp [State.busy]

/-- A request is offered only where the pointer is inside the program (10_state R19). -/
theorem State.cp_lt_of_offered {s : State} {p : Port} {r : Request} (h : s.offered p = some r) :
    (s.io p).cp < (s.io p).program.length :=
  (List.getElem?_eq_some_iff.mp h).1

/-- An OK response word, written out (30_encoding R63). -/
theorem responseWord_ok (v : U32) : responseWord .ok v = v ++ 0#30 ++ 0#2 := rfl

/-- A FAULT response word, written out (30_encoding R63). -/
theorem responseWord_fault (v : U32) : responseWord .fault v = v ++ 0#30 ++ 1#2 := rfl

/-- The bits of a response word (30_encoding R63). -/
theorem responseWord_bit (rsp : Rsp) (v : U32) (i : Nat) :
    (responseWord rsp v).getLsbD i =
      if i < 2 then rsp.code.getLsbD i else if i < 32 then false else v.getLsbD (i - 32) := by
  have h : BitVec.getLsbD (w := 32 + 30 + 2) (v ++ 0#30 ++ rsp.code) i =
      if i < 2 then rsp.code.getLsbD i else if i < 32 then false else v.getLsbD (i - 32) := by
    rw [BitVec.getLsbD_append, BitVec.getLsbD_append]
    by_cases h1 : i < 2
    · simp [h1]
    · by_cases h2 : i < 32
      · simp [h1, h2, show i - 2 < 30 by omega]
      · simp [h1, h2, show ¬ i - 2 < 30 by omega, show i - 2 - 30 = i - 32 by omega]
  exact h

/-- VALUE of a response word is the value it was made of. -/
@[simp] theorem Response.value_responseWord (rsp : Rsp) (v : U32) (d : List Byte) :
    Response.value ⟨responseWord rsp v, d⟩ = v := by
  apply BitVec.eq_of_getLsbD_eq
  intro i hi
  simp only [Response.value, BitVec.getLsbD_extractLsb', responseWord_bit]
  simp only [hi, decide_true, Bool.true_and, show ¬ 32 + i < 2 by omega, show ¬ 32 + i < 32 by omega, if_false,
    Nat.add_sub_cancel_left]

/-- RSP of a response word is the one it was made of. -/
@[simp] theorem Response.isOk_responseWord (rsp : Rsp) (v : U32) (d : List Byte) :
    Response.isOk ⟨responseWord rsp v, d⟩ = decide (rsp = .ok) := by
  have h : BitVec.extractLsb' 0 2 (responseWord rsp v) = rsp.code := by
    apply BitVec.eq_of_getLsbD_eq
    intro i hi
    simp only [BitVec.getLsbD_extractLsb', responseWord_bit]
    simp [hi]
  cases rsp <;> simp [Response.isOk, h, Rsp.code]

/-- MAX_CAPACITY is the power of two the parameter names (00_scope R6). -/
theorem State.maxCapacity_toNat (s : State) : s.maxCapacity.toNat = 2 ^ s.maxLog2.val := by
  rw [State.maxCapacity, BitVec.toNat_ofNat, Nat.mod_eq_of_lt]
  exact Nat.pow_lt_pow_right (by norm_num) s.maxLog2.isLt

theorem log2From_le (s f k : Nat) : log2From s f k ≤ k + f := by
  induction f generalizing k with
  | zero => exact Nat.le_refl _
  | succ f ih =>
    simp only [log2From]
    split
    · omega
    · exact (ih (k + 1)).trans (by omega)

/-- The rounded size as a number (40_lifecycle R70). -/
theorem roundupPow2_toNat (s : U32) : (roundupPow2 s).toNat = 2 ^ log2From s.toNat 31 0 := by
  rw [roundupPow2, BitVec.toNat_ofNat, Nat.mod_eq_of_lt]
  exact Nat.pow_lt_pow_right (by norm_num) (by have := log2From_le s.toNat 31 0; omega)

/-- The level after `n` bytes are published (42_write R79). -/
theorem State.level_write {s : State} {n : U32} (h : s.level.toNat + n.toNat < 2 ^ 32) :
    (s.writeSeq + n - s.readSeq).toNat = s.level.toNat + n.toNat := by
  have : s.writeSeq + n - s.readSeq = s.level + n := by simp only [State.level]; ring
  rw [this, BitVec.toNat_add_of_lt h]

/-- The level after `n` bytes are consumed (41_read R75). -/
theorem State.level_read {s : State} {n : U32} (h : n ≤ s.level) :
    (s.writeSeq - (s.readSeq + n)).toNat = s.level.toNat - n.toNat := by
  have : s.writeSeq - (s.readSeq + n) = s.level - n := by simp only [State.level]; ring
  rw [this, BitVec.toNat_sub_of_le h]

/-- `write_seq` is `read_seq` and the level. -/
theorem State.writeSeq_eq (s : State) : s.writeSeq = s.readSeq + BitVec.ofNat 32 s.level.toNat := by
  rw [State.level, BitVec.ofNat_toNat, BitVec.setWidth_eq]; ring

end Sys2Proof.Machine
end

