-- ==== Sys2Proof/Laws/Step.lean ====
section
/-! SUPPORT. Everything a step can do, said once: who may be picked, and the cases of one agent's step. -/

namespace Sys2Proof.Machine

/-! ### Picking an agent -/

theorem State.mem_enabledPorts (s : State) (p : Port) : p ∈ s.enabledPorts ↔ s.enabled p = true := by
  cases p <;> simp [State.enabledPorts]

/-- Only an agent with an enabled step is picked. -/
theorem State.enabled_of_pick {s : State} {p : Port} {rest : List Port} (h : s.pick = some (p, rest)) :
    s.enabled p = true := by
  unfold State.pick at h
  split at h
  · rename_i q rest' hq
    cases h
    have := List.head_dropWhile_not (p := fun p => !s.enabled p) (l := s.sched) (by rw [hq]; simp)
    simpa [hq] using this
  · split at h
    · cases h
    · rename_i hq
      cases h
      exact (s.mem_enabledPorts p).mp (by simp [hq])
    · rename_i q r ps hq
      cases h
      apply (s.mem_enabledPorts _).mp
      rw [hq, List.getD_eq_getElem?_getD]
      have hlt : Config.agentChoice s.ticks % (ps.length + 2) < (q :: r :: ps).length := by
        simp only [List.length_cons]; exact Nat.mod_lt _ (by omega)
      rw [List.getElem?_eq_getElem hlt]
      exact List.getElem_mem hlt

/-- No agent is picked exactly when none has an enabled step. -/
theorem State.pick_eq_none (s : State) : s.pick = none ↔ ∀ p, s.enabled p = false := by
  constructor
  · intro h p
    unfold State.pick at h
    split at h
    · cases h
    · split at h
      · rename_i hq
        by_contra hp
        have := (s.mem_enabledPorts p).mpr (by simpa using hp)
        rw [hq] at this; cases this
      · cases h
      · cases h
  · intro h
    match hp : s.pick with
    | none => rfl
    | some (p, rest) => have := State.enabled_of_pick hp; rw [h p] at this; cases this

/-- The first of the schedule moves, when it has an enabled step. -/
theorem State.pick_of_sched {s : State} {p : Port} {rest : List Port} (h : s.sched = p :: rest)
    (he : s.enabled p = true) : s.pick = some (p, rest) := by
  unfold State.pick
  rw [h, List.dropWhile_cons_of_neg (by simp [he])]

/-- A step is the step of the agent picked. -/
theorem step_of_pick {s : State} {p : Port} {rest : List Port} (h : s.pick = some (p, rest)) :
    step s = agentStep p (s.consume rest) := by
  simp only [step, machineStep, h]

/-- A step that gives a next state is an enabled agent's. -/
theorem agentStep_of_step {s t : State} (h : step s = .next t) :
    ∃ p rest, s.pick = some (p, rest) ∧ s.enabled p = true ∧ agentStep p (s.consume rest) = .next t := by
  match hp : s.pick with
  | none =>
    simp only [step, machineStep, hp, State.endOfRun] at h
    split at h <;> cases h
  | some (p, rest) => exact ⟨p, rest, rfl, State.enabled_of_pick hp, (step_of_pick hp) ▸ h⟩

@[simp] theorem State.consume_enabled (s : State) (rest : List Port) (p : Port) :
    (s.consume rest).enabled p = s.enabled p := by
  cases p <;> rfl

/-! ### What one agent's step can do -/

/-- `Moves s p t`: what agent `p` may do in one step from `s`, `t` the state it leaves. One constructor for each kind
of step: the answers and faults of an acceptance (60 R85), and the steps of R69, R71, R73 to R75, R77 to R80. -/
inductive Moves (s : State) : Port → State → Prop
  | refused (p : Port) (r : Request) (hs : s.state = .faulted) (hb : s.busy p = false) (ho : s.offered p = some r)
      (hd : ∀ reg, decode p r ≠ .ok (.rdreg reg)) : Moves s p (s.refuse p)
  | raised (p : Port) (r : Request) (cause : Cause) (c : U64) (hs : s.state ≠ .faulted) (hb : s.busy p = false)
      (ho : s.offered p = some r)
      (hc : (decode p r = .error cause ∧ c = r.word) ∨ (cause ≠ .none ∧ ∃ i, decode p r = .ok i ∧ c = encodeWord i)) :
      Moves s p (s.raise cause p c)
  | created (r : Request) (size : U32) (ho : s.offered .ctl = some r) (hd : decode .ctl r = .ok (.create size))
      (hs : s.state = .unconfigured) (h0 : size ≠ 0#32) (h1 : size ≤ 0x80000000#32)
      (hm : roundupPow2 size ≤ s.maxCapacity) :
      Moves s .ctl ((s.configure (roundupPow2 size)).answer .ctl .ok (roundupPow2 size) [])
  | destroyed (r : Request) (ho : s.offered .ctl = some r) (hd : decode .ctl r = .ok .destroy)
      (hs : s.state = .active) (hp : s.prod.phase = .idle) (hc : s.cons.phase = .idle) :
      Moves s .ctl (s.release.answer .ctl .ok 0#32 [])
  | registerRead (r : Request) (reg : Reg) (ho : s.offered .ctl = some r) (hd : decode .ctl r = .ok (.rdreg reg)) :
      Moves s .ctl (s.answer .ctl .ok (s.regval reg) [])
  | wrote (r : Request) (ap : Bool) (len : U32) (src : List Byte) (ho : s.offered .prod = some r)
      (hd : decode .prod r = .ok (if ap then .writePart len src else .writeAll len src))
      (hs : s.state = .active) (hp : s.prod.phase = .idle) :
      Moves s .prod (writeSnap ap len src s)
  | writeCopied (t : State) (hs : s.state ≠ .faulted) (hp : s.prod.phase = .copy) (h : writeCopy s = .next t) :
      Moves s .prod t
  | writePublished (t : State) (hs : s.state ≠ .faulted) (hp : s.prod.phase = .pub) (h : writePub s = .next t) :
      Moves s .prod t
  | didRead (r : Request) (ap : Bool) (len : U32) (ho : s.offered .cons = some r)
      (hd : decode .cons r = .ok (if ap then .readPart len else .readAll len))
      (hs : s.state = .active) (hp : s.cons.phase = .idle) :
      Moves s .cons (readSnap ap len s)
  | readCopied (t : State) (hs : s.state ≠ .faulted) (hp : s.cons.phase = .copy) (h : readCopy s = .next t) :
      Moves s .cons t
  | readPublished (t : State) (hs : s.state ≠ .faulted) (hp : s.cons.phase = .pub) (h : readPub s = .next t) :
      Moves s .cons t

theorem Life.eq_active {l : Life} (h1 : l ≠ .faulted) (h2 : l ≠ .unconfigured) : l = .active := by
  cases l <;> simp_all

theorem Life.eq_unconfigured {l : Life} (h1 : l ≠ .faulted) (h2 : l ≠ .active) : l = .unconfigured := by
  cases l <;> simp_all

/-- The acceptance of a decoded command, case by case. -/
theorem moves_of_exec {s t : State} {p : Port} {r : Request} {i : Instr} (hb : s.busy p = false)
    (ho : s.offered p = some r) (hd : decode p r = .ok i) (h : exec i s = .next t) : Moves s p t := by
  have hp := port_of_decode hd
  cases i with
  | create size =>
    cases (show Port.ctl = p from hp)
    simp only [exec, execCreate] at h
    split_ifs at h with h1 h2 h3 h4
    · cases h; exact .refused _ r h1 hb ho (by simp [hd])
    · cases h; exact .raised _ r _ _ h1 hb ho (.inr ⟨by decide, _, hd, rfl⟩)
    · cases h; exact .raised _ r _ _ h1 hb ho (.inr ⟨by decide, _, hd, rfl⟩)
    · cases h; exact .raised _ r _ _ h1 hb ho (.inr ⟨by decide, _, hd, rfl⟩)
    · cases h
      have h3 := not_or.mp h3
      exact .created r size ho hd (Life.eq_unconfigured h1 h2) h3.1 (BitVec.not_lt.mp h3.2) (BitVec.not_lt.mp h4)
  | destroy =>
    cases (show Port.ctl = p from hp)
    simp only [exec, execDestroy] at h
    split_ifs at h with h1 h2 h3
    · cases h; exact .refused _ r h1 hb ho (by simp [hd])
    · cases h; exact .raised _ r _ _ h1 hb ho (.inr ⟨by decide, _, hd, rfl⟩)
    · cases h; exact .raised _ r _ _ h1 hb ho (.inr ⟨by decide, _, hd, rfl⟩)
    · cases h
      have h3 : s.prod.phase = .idle ∧ s.cons.phase = .idle := by
        simpa [State.transferInFlight, State.busy] using h3
      exact .destroyed r ho hd (Life.eq_active h1 h2) h3.1 h3.2
  | writeAll len src =>
    cases (show Port.prod = p from hp)
    have hph : s.prod.phase = .idle := by simpa [State.busy] using hb
    simp only [exec, execWriteAll, writeStep, hph, writeAccept] at h
    split_ifs at h with h1 h2
    · cases h; exact .refused _ r h1 hb ho (by simp [hd])
    · cases h; exact .raised _ r _ _ h1 hb ho (.inr ⟨by decide, _, hd, rfl⟩)
    · cases h; exact .wrote r false len src ho hd (Life.eq_active h1 h2) hph
  | writePart len src =>
    cases (show Port.prod = p from hp)
    have hph : s.prod.phase = .idle := by simpa [State.busy] using hb
    simp only [exec, execWritePart, writeStep, hph, writeAccept] at h
    split_ifs at h with h1 h2
    · cases h; exact .refused _ r h1 hb ho (by simp [hd])
    · cases h; exact .raised _ r _ _ h1 hb ho (.inr ⟨by decide, _, hd, rfl⟩)
    · cases h; exact .wrote r true len src ho hd (Life.eq_active h1 h2) hph
  | readAll len =>
    cases (show Port.cons = p from hp)
    have hph : s.cons.phase = .idle := by simpa [State.busy] using hb
    simp only [exec, execReadAll, readStep, hph, readAccept] at h
    split_ifs at h with h1 h2
    · cases h; exact .refused _ r h1 hb ho (by simp [hd])
    · cases h; exact .raised _ r _ _ h1 hb ho (.inr ⟨by decide, _, hd, rfl⟩)
    · cases h; exact .didRead r false len ho hd (Life.eq_active h1 h2) hph
  | readPart len =>
    cases (show Port.cons = p from hp)
    have hph : s.cons.phase = .idle := by simpa [State.busy] using hb
    simp only [exec, execReadPart, readStep, hph, readAccept] at h
    split_ifs at h with h1 h2
    · cases h; exact .refused _ r h1 hb ho (by simp [hd])
    · cases h; exact .raised _ r _ _ h1 hb ho (.inr ⟨by decide, _, hd, rfl⟩)
    · cases h; exact .didRead r true len ho hd (Life.eq_active h1 h2) hph
  | rdreg reg =>
    cases (show Port.ctl = p from hp)
    cases h
    exact .registerRead r reg ho hd

/-- Everything one agent's step can do. -/
theorem moves_of_agentStep {s t : State} {p : Port} (h : agentStep p s = .next t) : Moves s p t := by
  unfold agentStep at h
  by_cases hb : s.busy p = true
  · rw [if_pos hb] at h
    cases p with
    | ctl => cases h
    | prod =>
      simp only [transferStep] at h
      split at h
      · cases h
      · rename_i hp
        refine .writeCopied t ?_ hp h
        intro hf; simp [writeCopy, hf] at h
      · rename_i hp
        refine .writePublished t ?_ hp h
        intro hf; simp [writePub, hf] at h
    | cons =>
      simp only [transferStep] at h
      split at h
      · cases h
      · rename_i hp
        refine .readCopied t ?_ hp h
        intro hf; simp [readCopy, hf] at h
      · rename_i hp
        refine .readPublished t ?_ hp h
        intro hf; simp [readPub, hf] at h
  · rw [if_neg hb] at h
    have hb : s.busy p = false := by simpa using hb
    split at h
    · simp only [State.endOfRun] at h; split at h <;> cases h
    · rename_i r ho
      simp only [accept] at h
      split at h
      · rename_i i hd
        exact moves_of_exec hb ho hd h
      · rename_i cause hd
        split_ifs at h with hf
        · cases h; exact .refused _ r hf hb ho (by simp [hd])
        · cases h; exact .raised _ r cause _ hf hb ho (.inl ⟨hd, rfl⟩)

/-- Everything a step can do. -/
theorem moves_of_step {s t : State} (h : step s = .next t) :
    ∃ p rest, s.pick = some (p, rest) ∧ s.enabled p = true ∧ Moves (s.consume rest) p t := by
  obtain ⟨p, rest, h1, h2, h3⟩ := agentStep_of_step h
  exact ⟨p, rest, h1, h2, moves_of_agentStep h3⟩

end Sys2Proof.Machine
end

