-- ==== Sys2Proof/Laws/Invariant.lean ====
section
/-! SUPPORT. What the invariant gives a transfer in flight: its length fits, and its bytes are where no other transfer
stores. Nothing here says that a step keeps the invariant. -/

namespace Sys2Proof.Machine

/-- A buffer's capacity is a power of two of at most 2^31 (10_state R32). -/
theorem Inv.power {s : State} (h : Inv s) (h0 : s.capacity ≠ 0#32) : ∃ k, k ≤ 31 ∧ s.capacity.toNat = 2 ^ k := by
  rcases h.capacity with h1 | ⟨k, hk, h1⟩
  · exact absurd (BitVec.eq_of_toNat_eq (by simpa using h1)) h0
  · exact ⟨k, by have := s.maxLog2.isLt; omega, h1⟩

theorem Inv.capacity_le {s : State} (h : Inv s) : s.capacity.toNat ≤ 2 ^ 31 := by
  rcases h.capacity with h1 | ⟨k, hk, h1⟩
  · omega
  · rw [h1]; exact Nat.pow_le_pow_right (by norm_num) (by have := s.maxLog2.isLt; omega)

/-- A WRITE in flight has a buffer. -/
theorem Inv.buffer_of_write {s : State} (h : Inv s) (hp : s.prod.phase ≠ .idle) : s.capacity ≠ 0#32 :=
  fun h1 => hp (h.noBuffer h1).2.2.1

/-- A READ in flight has a buffer. -/
theorem Inv.buffer_of_read {s : State} (h : Inv s) (hp : s.cons.phase ≠ .idle) : s.capacity ≠ 0#32 :=
  fun h1 => hp (h.noBuffer h1).2.2.2

/-- FREE as a number (10_state R24). -/
theorem Inv.free_toNat {s : State} (h : Inv s) : s.free.toNat = s.capacity.toNat - s.level.toNat := by
  rw [State.free, BitVec.toNat_sub_of_le h.occupancy]

/-- A WRITE in flight still has room for all it is to store (20_memory R50). -/
theorem WriteFlight.room {s : State} (h : WriteFlight s) : s.level.toNat + s.prod.n.toNat ≤ s.capacity.toNat := by
  have a := h.snapshot
  have b := h.stale
  have c := h.fits
  rw [BitVec.le_def] at a b c
  rw [BitVec.toNat_sub_of_le a] at c
  omega

theorem WriteFlight.n_le_capacity {s : State} (h : WriteFlight s) : s.prod.n ≤ s.capacity := by
  have := h.room
  rw [BitVec.le_def]
  omega

theorem WriteFlight.n_le_payload {s : State} (h : WriteFlight s) : s.prod.n.toNat ≤ s.prod.payload.length := by
  have := h.bound
  rw [h.payload]
  rwa [BitVec.le_def] at this

/-- A READ in flight takes no more than is still buffered (20_memory R50). -/
theorem ReadFlight.n_le_level {s : State} (h : ReadFlight s) : s.cons.n ≤ s.level := by
  have a := h.stale
  have b := h.fits
  rw [BitVec.le_def] at *
  omega

theorem Inv.read_le_capacity {s : State} (h : Inv s) (hp : s.cons.phase ≠ .idle) : s.cons.n ≤ s.capacity := by
  have a := (h.read hp).n_le_level
  have b := h.occupancy
  rw [BitVec.le_def] at *
  omega

/-- The bytes of sequence numbers `read_seq` to `write_seq` and those a WRITE in flight stores have distinct offsets
(20_memory R46). -/
theorem Inv.offset_ne {s : State} (h : Inv s) (hp : s.prod.phase ≠ .idle) {i j : Nat} (hi : i < s.level.toNat)
    (hj : j < s.prod.n.toNat) :
    (offsetOf s.capacity (s.readSeq + BitVec.ofNat 32 i)).toNat ≠
      (offsetOf s.capacity (s.prod.base + BitVec.ofNat 32 j)).toNat := by
  have hw := h.write hp
  obtain ⟨k, -, hc⟩ := h.power (h.buffer_of_write hp)
  have hr := hw.room
  intro heq
  rw [hw.base, s.writeSeq_eq, BitVec.add_assoc, ← BitVec.ofNat_add] at heq
  have := offset_injective hc s.readSeq (by omega) (by omega) heq
  omega

/-- WRITE's COPY leaves every buffered byte (20_memory R46). -/
theorem Inv.byteAt_copied {s : State} (h : Inv s) (hp : s.prod.phase ≠ .idle) {i : Nat} (hi : i < s.level.toNat)
    (r : ProdRegs) :
    State.byteAt { s with storage := s.copied, prod := r } (s.readSeq + BitVec.ofNat 32 i) =
      s.byteAt (s.readSeq + BitVec.ofNat 32 i) := by
  obtain ⟨k, -, hc⟩ := h.power (h.buffer_of_write hp)
  have hw := h.write hp
  simp only [State.byteAt]
  exact (State.get_copied h.memory hc hw.n_le_capacity hw.n_le_payload).2 _ (fun j hj => h.offset_ne hp hi hj)

theorem State.byteAt_congr {s t : State} (h1 : t.storage = s.storage) (h2 : t.capacity = s.capacity) (q : U32) :
    t.byteAt q = s.byteAt q := by
  simp only [State.byteAt, h1, h2]

/-- The buffered bytes depend on storage, capacity and the two counters only. -/
theorem State.queue_congr {s t : State} (h1 : t.storage = s.storage) (h2 : t.capacity = s.capacity)
    (h3 : t.readSeq = s.readSeq) (h4 : t.writeSeq = s.writeSeq) : t.queue = s.queue := by
  unfold State.queue
  rw [State.level, h3, h4]
  exact State.window_congr (fun i _ => State.byteAt_congr h1 h2 _)

/-- What a response adds to the bytes CONS has returned. -/
theorem bytesRead_answered (x : PortIo) (a : Response) : bytesRead (x.answered a) = bytesRead x ++ a.data := by
  simp [bytesRead]

/-- What a response adds to the bytes PROD has appended. -/
theorem bytesWritten_answered {x : PortIo} {r : Request} (hr : x.program[x.cp]? = some r)
    (hl : x.responses.length = x.cp) (a : Response) :
    bytesWritten (x.answered a) =
      bytesWritten x ++ (if Response.isOk a then r.payload.take (Response.value a).toNat else []) := by
  obtain ⟨hlt, hr⟩ := List.getElem?_eq_some_iff.mp hr
  have h1 : x.program = x.program.take x.cp ++ r :: x.program.drop (x.cp + 1) := by
    rw [← hr]; simp
  have hlen : (x.program.take x.cp).length = x.responses.length := by
    simp only [List.length_take, hl]; omega
  have h2 : x.program.zip (x.responses ++ [a]) = (x.program.take x.cp).zip x.responses ++ [(r, a)] := by
    conv_lhs => rw [h1]
    rw [List.zip_append hlen]; simp
  have h3 : x.program.zip x.responses = (x.program.take x.cp).zip x.responses := by
    conv_lhs => rw [h1, ← List.append_nil x.responses]
    rw [List.zip_append hlen]; simp
  simp only [bytesWritten, PortIo.answered_program, PortIo.answered_responses, h2, h3]
  simp

/-- A port after it has answered the command at its pointer. -/
theorem PortInv.of_answer {s t : State} {p : Port} (h : PortInv s p) {a : Response}
    (hio : t.io p = (s.io p).answered a) (hlt : (s.io p).cp < (s.io p).program.length) (hb : t.busy p = false) :
    PortInv t p := by
  constructor
  · simp [hio, h.answered]
  · simp only [hio, PortIo.answered_cp, PortIo.answered_program]; omega
  · simp [hb]

/-- A port that no step touched. -/
theorem PortInv.of_same {s t : State} {p : Port} (h : PortInv s p) (hio : t.io p = s.io p)
    (hb : t.busy p = s.busy p) : PortInv t p := by
  constructor
  · rw [hio]; exact h.answered
  · rw [hio]; exact h.inside
  · rw [hb, hio]; exact h.pending

end Sys2Proof.Machine
end

