-- ==== Sys2Proof/Laws/PerInstr.lean ====
section
/-! SUPPORT. Statements for all commands, one lemma for each constructor of Instr. -/

namespace Sys2Proof.Laws.WordForm

/-- A command's word has its opcode in OPC and no reserved bit set (30_encoding R54, R55, R59). -/
def Statement (i : Instr) : Prop :=
  opcodeOf? (opcField (encodeWord i)) = some i.opcode ∧ reservedSet i.opcode (encodeWord i) = false

theorem create (size : U32) : Statement (.create size) := by
  simp [Statement, encodeWord, Instr.opcode, reservedSet, usesAp, usesReg, usesArg]

theorem destroy : Statement .destroy := by
  simp [Statement, encodeWord, Instr.opcode, reservedSet, usesAp, usesReg, usesArg]

theorem writeAll (len : U32) (src : List Byte) : Statement (.writeAll len src) := by
  simp [Statement, encodeWord, Instr.opcode, reservedSet, usesAp, usesReg, usesArg]

theorem writePart (len : U32) (src : List Byte) : Statement (.writePart len src) := by
  simp [Statement, encodeWord, Instr.opcode, reservedSet, usesAp, usesReg, usesArg]

theorem readAll (len : U32) : Statement (.readAll len) := by
  simp [Statement, encodeWord, Instr.opcode, reservedSet, usesAp, usesReg, usesArg]

theorem readPart (len : U32) : Statement (.readPart len) := by
  simp [Statement, encodeWord, Instr.opcode, reservedSet, usesAp, usesReg, usesArg]

theorem rdreg (reg : Reg) : Statement (.rdreg reg) := by
  simp [Statement, encodeWord, Instr.opcode, reservedSet, usesAp, usesReg, usesArg]

end Sys2Proof.Laws.WordForm
end

