-- ==== Sys2Proof/Tests/Slice0.lean ====
section
/-! SUPPORT. The model's own tests. Expected values come from spec/95_test_vectors.md (V, E) or by hand from the rules
named. `test_meets_<Name>` shows a concrete case that meets all hypotheses of the obligation `<Name>`. -/

namespace Sys2Proof.Tests

open Sys2Proof Sys2Proof.Machine

/-! ### Helpers -/

/-- The next state, where there is one. -/
def next? : Result → Option State
  | .next s => some s
  | .fault _ => none
  | .refused _ => none

/-- What a test looks at in the next state. -/
def after {α : Type} (r : Result) (f : State → α) : Option α := (next? r).map f

/-- What a decoder answers, as data that `decide` can compare. -/
def verdict (p : Port) (r : Request) : Sum Cause Instr :=
  match decode p r with
  | .ok i => .inr i
  | .error c => .inl c

/-- An ACTIVE block with idle ports. -/
def buffer (c rs ws : U32) (cells : List Host.Cell) : State :=
  { State.reset with state := .active, capacity := c, readSeq := rs, writeSeq := ws, storage := cells }

/-- `s` with these programs, none of their commands accepted. -/
def loaded (s : State) (ctl prod cons : List Request) : State :=
  { s with ctlIo := ⟨ctl, 0, []⟩, prodIo := ⟨prod, 0, []⟩, consIo := ⟨cons, 0, []⟩ }

/-- A block in FAULTED state after RDREG 0x0A (V77). -/
def faulted (s : State) : State :=
  { s with state := .faulted, faultCause := .badReg, faultPort := .ctl, faultCmd := 0x00000000000A0005#64 }

/-- CREATE 8, WRITE.ALL 5 "abcde" (V52's start), with a command waiting at each port. -/
def sIdle : State :=
  loaded (buffer 8#32 0#32 5#32 [(0, 0x61#8), (1, 0x62#8), (2, 0x63#8), (3, 0x64#8), (4, 0x65#8)])
    [encode .destroy] [encode (.writeAll 2#32 [0x78#8, 0x79#8])] [encode (.readAll 2#32)]

/-- `sIdle` with the WRITE in COPY. -/
def sWriteCopy : State := { sIdle with prod := ⟨.copy, 2#32, false, [0x78#8, 0x79#8], 5#32, 0#32, 2#32⟩ }

/-- `sIdle` with the WRITE in PUB, its two bytes stored. -/
def sWritePub : State :=
  { sWriteCopy with
    storage := sIdle.storage ++ [(5, 0x78#8), (6, 0x79#8)]
    prod := ⟨.pub, 2#32, false, [0x78#8, 0x79#8], 5#32, 0#32, 2#32⟩ }

/-- `sIdle` with the READ in COPY. -/
def sReadCopy : State := { sIdle with cons := ⟨.copy, 2#32, false, 0#32, 5#32, 2#32, []⟩ }

/-- `sIdle` with the READ in PUB. -/
def sReadPub : State := { sIdle with cons := ⟨.pub, 2#32, false, 0#32, 5#32, 2#32, [0x61#8, 0x62#8]⟩ }

/-- `sIdle` with both transfers in COPY. -/
def sBoth : State := { sWriteCopy with cons := sReadCopy.cons }

/-- UNCONFIGURED with a command waiting at each port. -/
def sFresh : State :=
  State.boot 31 [encode (.create 8#32)] [encode (.writeAll 1#32 [0x61#8])] [encode (.readPart 1#32)] [.ctl]

/-- A FAULTED block with every program done. -/
def sDone : State := faulted State.reset

/-! ### The invariant on these states -/

theorem inv_sIdle : Inv sIdle where
  memory := by decide
  addresses := by decide
  capacity := .inr ⟨3, by decide, by decide⟩
  unconfigured := by decide
  active := by decide
  noBuffer := by decide
  fault := by decide
  occupancy := by decide
  write := fun h => absurd rfl h
  read := fun h => absurd rfl h
  ports := by intro p; cases p <;> exact ⟨by decide, by decide, by decide⟩

theorem inv_sWriteCopy : Inv sWriteCopy where
  memory := by decide
  addresses := by decide
  capacity := .inr ⟨3, by decide, by decide⟩
  unconfigured := by decide
  active := by decide
  noBuffer := by decide
  fault := by decide
  occupancy := by decide
  write := fun _ =>
    ⟨by decide, by decide, by decide, by decide, by decide, by decide, by decide, by decide, _, rfl, rfl⟩
  read := fun h => absurd rfl h
  ports := by intro p; cases p <;> exact ⟨by decide, by decide, by decide⟩

theorem inv_sWritePub : Inv sWritePub where
  memory := by decide
  addresses := by decide
  capacity := .inr ⟨3, by decide, by decide⟩
  unconfigured := by decide
  active := by decide
  noBuffer := by decide
  fault := by decide
  occupancy := by decide
  write := fun _ =>
    ⟨by decide, by decide, by decide, by decide, by decide, by decide, by decide, by decide, _, rfl, rfl⟩
  read := fun h => absurd rfl h
  ports := by intro p; cases p <;> exact ⟨by decide, by decide, by decide⟩

theorem inv_sReadCopy : Inv sReadCopy where
  memory := by decide
  addresses := by decide
  capacity := .inr ⟨3, by decide, by decide⟩
  unconfigured := by decide
  active := by decide
  noBuffer := by decide
  fault := by decide
  occupancy := by decide
  write := fun h => absurd rfl h
  read := fun _ => ⟨by decide, by decide, by decide, by decide, by decide, by decide, _, rfl, rfl⟩
  ports := by intro p; cases p <;> exact ⟨by decide, by decide, by decide⟩

theorem inv_sReadPub : Inv sReadPub where
  memory := by decide
  addresses := by decide
  capacity := .inr ⟨3, by decide, by decide⟩
  unconfigured := by decide
  active := by decide
  noBuffer := by decide
  fault := by decide
  occupancy := by decide
  write := fun h => absurd rfl h
  read := fun _ => ⟨by decide, by decide, by decide, by decide, by decide, by decide, _, rfl, rfl⟩
  ports := by intro p; cases p <;> exact ⟨by decide, by decide, by decide⟩

theorem inv_sBoth : Inv sBoth where
  memory := by decide
  addresses := by decide
  capacity := .inr ⟨3, by decide, by decide⟩
  unconfigured := by decide
  active := by decide
  noBuffer := by decide
  fault := by decide
  occupancy := by decide
  write := fun _ =>
    ⟨by decide, by decide, by decide, by decide, by decide, by decide, by decide, by decide, _, rfl, rfl⟩
  read := fun _ => ⟨by decide, by decide, by decide, by decide, by decide, by decide, _, rfl, rfl⟩
  ports := by intro p; cases p <;> exact ⟨by decide, by decide, by decide⟩

theorem inv_sFresh : Inv sFresh where
  memory := by decide
  addresses := by decide
  capacity := .inl (by decide)
  unconfigured := by decide
  active := by decide
  noBuffer := by decide
  fault := by decide
  occupancy := by decide
  write := fun h => absurd rfl h
  read := fun h => absurd rfl h
  ports := by intro p; cases p <;> exact ⟨by decide, by decide, by decide⟩

/-! ### WellFormed smoke: the payload check (30_encoding R62) refuses an ill-formed WRITE -/

theorem test_writeAll_short_payload_is_ill_formed : (Instr.writeAll 3#32 [0x61#8, 0x62#8]).wellFormed = false := by
  decide

theorem test_writePart_long_payload_is_ill_formed : (Instr.writePart 0#32 [0x61#8]).wellFormed = false := by decide

/-! ### Decoding of words written out from 30_encoding R54 and R55 -/

/-- ARG 10, OPC 1. -/
theorem test_decode_create : verdict .ctl ⟨0x0000000A00000001#64, []⟩ = .inr (.create 10#32) := by decide
/-- OPC 2. -/
theorem test_decode_destroy : verdict .ctl ⟨0x0000000000000002#64, []⟩ = .inr .destroy := by decide
/-- ARG 2, OPC 3, AP 0. -/
theorem test_decode_writeAll : verdict .prod ⟨0x0000000200000003#64, [0x61#8, 0x62#8]⟩ =
    .inr (.writeAll 2#32 [0x61#8, 0x62#8]) := by decide
/-- ARG 1, OPC 3, AP 1. -/
theorem test_decode_writePart : verdict .prod ⟨0x0000000100000013#64, [0x7A#8]⟩ =
    .inr (.writePart 1#32 [0x7A#8]) := by decide
/-- ARG 5, OPC 4, AP 0. -/
theorem test_decode_readAll : verdict .cons ⟨0x0000000500000004#64, []⟩ = .inr (.readAll 5#32) := by decide
/-- ARG 0xFFFFFFFF, OPC 4, AP 1 (V56). -/
theorem test_decode_readPart : verdict .cons ⟨0xFFFFFFFF00000014#64, []⟩ = .inr (.readPart 0xFFFFFFFF#32) := by decide
/-- REG 9, OPC 5 (V94): the last defined index. -/
theorem test_decode_rdreg : verdict .ctl ⟨0x0000000000090005#64, []⟩ = .inr (.rdreg .maxCapacity) := by decide

/-- Each command's word, as its own rule's encoding line gives it. -/
theorem test_encode_words :
    encodeWord (.create 10#32) = 0x0000000A00000001#64 ∧ encodeWord .destroy = 0x0000000000000002#64 ∧
    encodeWord (.writeAll 9#32 []) = 0x0000000900000003#64 ∧ encodeWord (.writePart 13#32 []) = 0x0000000D00000013#64 ∧
    encodeWord (.readAll 5#32) = 0x0000000500000004#64 ∧ encodeWord (.readPart 6#32) = 0x0000000600000014#64 ∧
    encodeWord (.rdreg .free) = 0x0000000000050005#64 := by decide

/-- V84 and V87: reserved opcodes, 0 and the last. -/
theorem test_decode_illegal_opcode : verdict .ctl ⟨0#64, []⟩ = .inl .illegalOpcode ∧
    verdict .cons ⟨0xFFFFFFFFFFFFFFFF#64, []⟩ = .inl .illegalOpcode := by decide
/-- V85: the first opcode above the map. -/
theorem test_decode_opcode_six : verdict .ctl ⟨0x6#64, []⟩ = .inl .illegalOpcode := by decide
/-- V89, V62 and V83: WRONG_PORT beats RESERVED_FIELD. -/
theorem test_decode_wrong_port : verdict .prod ⟨0xFFFFFFFFFFFFFFF1#64, []⟩ = .inl .wrongPort ∧
    verdict .prod ⟨0x0000000100000004#64, []⟩ = .inl .wrongPort ∧
    verdict .cons ⟨0x0000000000040005#64, []⟩ = .inl .wrongPort := by decide
/-- V46, V63, bits 15 and 31: the reserved bits. -/
theorem test_decode_reserved_bits : verdict .prod ⟨0x0000000100000023#64, [0x61#8]⟩ = .inl .reservedField ∧
    verdict .cons ⟨0x0000000101000004#64, []⟩ = .inl .reservedField ∧
    verdict .cons ⟨0x0000000100008004#64, []⟩ = .inl .reservedField ∧
    verdict .ctl ⟨0x0000000080000002#64, []⟩ = .inl .reservedField := by decide
/-- V18, V90, V82: AP on a command that has none. -/
theorem test_decode_reserved_ap : verdict .ctl ⟨0x0000000800000011#64, []⟩ = .inl .reservedField ∧
    verdict .ctl ⟨0x0000000000000012#64, []⟩ = .inl .reservedField ∧
    verdict .ctl ⟨0x0000000000040015#64, []⟩ = .inl .reservedField := by decide
/-- V19, V64: REG on a command that has none. -/
theorem test_decode_reserved_reg : verdict .ctl ⟨0x0000000800010001#64, []⟩ = .inl .reservedField ∧
    verdict .cons ⟨0x0000000100020004#64, []⟩ = .inl .reservedField := by decide
/-- V24, V93: ARG on a command that has none; RESERVED_FIELD beats BAD_REG. -/
theorem test_decode_reserved_arg : verdict .ctl ⟨0x0000000100000002#64, []⟩ = .inl .reservedField ∧
    verdict .ctl ⟨0x00000001000A0005#64, []⟩ = .inl .reservedField := by decide
/-- V92, V80: the first reserved index and the last. -/
theorem test_decode_bad_reg : verdict .ctl ⟨0x00000000000A0005#64, []⟩ = .inl .badReg ∧
    verdict .ctl ⟨0x0000000000FF0005#64, []⟩ = .inl .badReg := by decide
/-- V44: a payload one byte short. -/
theorem test_decode_bad_payload : verdict .prod ⟨0x0000000300000003#64, [0x61#8, 0x62#8]⟩ = .inl .badPayload := by decide

/-- R66's example, in both directions. -/
theorem test_little_endian : requestBytes (encode (.create 10#32)) =
      [0x01#8, 0x00#8, 0x00#8, 0x00#8, 0x0A#8, 0x00#8, 0x00#8, 0x00#8] ∧
    responseBytes ⟨0x0000001000000000#64, []⟩ =
      [0x00#8, 0x00#8, 0x00#8, 0x00#8, 0x10#8, 0x00#8, 0x00#8, 0x00#8] ∧
    parseRequest [0x01#8, 0x00#8, 0x00#8, 0x00#8, 0x0A#8, 0x00#8, 0x00#8, 0x00#8] = some (encode (.create 10#32)) := by
  decide

/-! ### The assembler (30_encoding R67, R68) -/

/-- Numbers, a name, a bracketed list and a string with a space. -/
theorem test_assemble_lines :
    assemble "ctl: CREATE 0x0A".toList = some (.ctl, ⟨0x0000000A00000001#64, []⟩) ∧
    assemble "ctl: RDREG FAULT_CMD_HI".toList = some (.ctl, ⟨0x0000000000080005#64, []⟩) ∧
    assemble "prod: WRITE.PART 2, [0x61, 98]".toList = some (.prod, ⟨0x0000000200000013#64, [0x61#8, 0x62#8]⟩) ∧
    assemble "prod: PUSH \"a b\"".toList = some (.prod, ⟨0x0000000300000003#64, [0x61#8, 0x20#8, 0x62#8]⟩) ∧
    assemble "cons: DRAIN".toList = some (.cons, ⟨0xFFFFFFFF00000014#64, []⟩) := by decide +kernel

/-- A payload of another length, a mnemonic on another port, a number past u32. -/
theorem test_assemble_rejects :
    assemble "prod: WRITE.ALL 3, \"ab\"".toList = none ∧ assemble "cons: PUSH \"ab\"".toList = none ∧
    assemble "cons: POP 4294967296".toList = none := by decide +kernel

/-! ### The indexer (V95 to V103) -/

theorem test_segments : segments 8#32 6#32 4#32 = ⟨6, 2, 2⟩ ∧ segments 8#32 13#32 3#32 = ⟨5, 3, 0⟩ ∧
    segments 8#32 0xFFFFFFFF#32 2#32 = ⟨7, 1, 1⟩ ∧ segments 1#32 0x12345678#32 1#32 = ⟨0, 1, 0⟩ ∧
    segments 0x80000000#32 0x80000001#32 0x80000000#32 = ⟨1, 2 ^ 31 - 1, 1⟩ := by decide

/-! ### One step of each command -/

/-- V5. -/
theorem test_create_rounds : after (exec (.create 10#32) State.reset)
    (fun t => (t.capacity, t.state, t.ctlIo.responses)) =
      some (16#32, .active, [⟨0x0000001000000000#64, []⟩]) := by decide
/-- V13 and V15, with MAX_CAPACITY = 16: ALLOC_FAIL, and BAD_SIZE before it. -/
theorem test_create_faults :
    after (exec (.create 17#32) (State.resetWith 4)) (fun t => (t.state, t.ctlIo.responses)) =
      some (.faulted, [⟨0x0000000A00000001#64, []⟩]) ∧
    after (exec (.create 0xFFFFFFFF#32) (State.resetWith 4)) (fun t => (t.state, t.ctlIo.responses)) =
      some (.faulted, [⟨0x0000000900000001#64, []⟩]) := by decide

/-- V21. -/
theorem test_destroy_clears : after (exec .destroy (buffer 8#32 3#32 5#32 [(3, 0x61#8)]))
    (fun t => (t.state, t.capacity, t.readSeq, t.writeSeq, t.ctlIo.responses)) =
      some (.unconfigured, 0#32, 0#32, 0#32, [⟨0#64, []⟩]) := by decide
/-- V25: DESTROY_BUSY, with PROD left in COPY. -/
theorem test_destroy_busy : after (exec .destroy sWriteCopy) (fun t => (t.prod, t.ctlIo.responses)) =
    some (sWriteCopy.prod, [⟨0x0000000800000001#64, []⟩]) := by decide

/-- V37: an all-or-nothing failure ends at SNAP. -/
theorem test_writeAll_nothing_moves :
    after (exec (.writeAll 4#32 [0x77#8, 0x78#8, 0x79#8, 0x7A#8]) (buffer 8#32 5#32 10#32 []))
      (fun t => (t.prod.phase, t.writeSeq, t.prodIo.responses)) = some (.idle, 10#32, [⟨0#64, []⟩]) := by decide
/-- V39: COPY stores 'W' and 'X' at offsets 6 and 7, 'Y' and 'Z' at 0 and 1. -/
theorem test_writeAll_copy_wraps :
    after (exec (.writeAll 4#32 []) { buffer 8#32 6#32 6#32 [] with
        prod := ⟨.copy, 4#32, false, [0x57#8, 0x58#8, 0x59#8, 0x5A#8], 6#32, 6#32, 4#32⟩ })
      (fun t => (t.storage, t.prod.phase)) =
        some ([(0, 0x59#8), (1, 0x5A#8), (6, 0x57#8), (7, 0x58#8)], .pub) := by decide
/-- V38: SNAP clamps to the 3 free bytes. -/
theorem test_writePart_clamps :
    after (exec (.writePart 4#32 [0x77#8, 0x78#8, 0x79#8, 0x7A#8]) (buffer 8#32 5#32 10#32 []))
      (fun t => (t.prod.phase, t.prod.base, t.prod.peer, t.prod.n)) = some (.copy, 10#32, 5#32, 3#32) := by decide
/-- V41's length at PUB: `write_seq` wraps past 2^32. -/
theorem test_writePart_pub_wraps :
    after (exec (.writePart 4#32 []) { buffer 4#32 0xFFFFFFFE#32 0xFFFFFFFE#32 [] with
        prod := ⟨.pub, 4#32, true, [], 0xFFFFFFFE#32, 0xFFFFFFFE#32, 4#32⟩ })
      (fun t => (t.writeSeq, t.prod.phase, t.prodIo.responses)) =
        some (2#32, .idle, [⟨0x0000000400000000#64, []⟩]) := by decide

/-- V53: an all-or-nothing failure ends at SNAP. -/
theorem test_readAll_nothing_moves : after (exec (.readAll 6#32) sIdle)
    (fun t => (t.cons.phase, t.readSeq, t.consIo.responses)) = some (.idle, 0#32, [⟨0#64, []⟩]) := by decide
/-- V58: COPY takes "WXYZ" from offsets 6, 7, 0 and 1. -/
theorem test_readAll_copy_wraps :
    after (exec (.readAll 4#32) { buffer 8#32 6#32 10#32 [(0, 0x59#8), (1, 0x5A#8), (6, 0x57#8), (7, 0x58#8)] with
        cons := ⟨.copy, 4#32, false, 6#32, 10#32, 4#32, []⟩ })
      (fun t => (t.cons.data, t.cons.phase)) = some ([0x57#8, 0x58#8, 0x59#8, 0x5A#8], .pub) := by decide
/-- V54: SNAP clamps to the 5 buffered bytes. -/
theorem test_readPart_clamps : after (exec (.readPart 6#32) sIdle)
    (fun t => (t.cons.phase, t.cons.base, t.cons.peer, t.cons.n)) = some (.copy, 0#32, 5#32, 5#32) := by decide
/-- V57's end: PUB returns "ab". -/
theorem test_readPart_pub : after (exec (.readPart 2#32) { sReadPub with cons.ap := true })
    (fun t => (t.readSeq, t.cons.phase, t.consIo.responses)) =
      some (2#32, .idle, [⟨0x0000000200000000#64, [0x61#8, 0x62#8]⟩]) := by decide

/-- V74: STATUS with a WRITE in COPY, and V75's rule that LEVEL shows published counters only. -/
theorem test_rdreg_status : after (exec (.rdreg .status) sWriteCopy) (·.ctlIo.responses) =
      some [⟨0x0000000500000000#64, []⟩] ∧
    after (exec (.rdreg .level) sWriteCopy) (·.ctlIo.responses) = some [⟨0x0000000500000000#64, []⟩] := by decide
/-- V79. -/
theorem test_rdreg_fault_registers : after (exec (.rdreg .faultCause) sDone) (·.ctlIo.responses) =
      some [⟨0x0000000400000000#64, []⟩] ∧
    after (exec (.rdreg .faultCmdLo) sDone) (·.ctlIo.responses) = some [⟨0x000A000500000000#64, []⟩] := by decide

/-- V62: a READ word on PROD, with port 1 in the FAULT response. -/
theorem test_wrong_port_response :
    after (agentStep .prod (loaded (buffer 8#32 0#32 0#32 []) [] [encode (.readAll 1#32)] []))
      (fun t => (t.state, t.faultCmd, t.prodIo.responses)) =
        some (.faulted, 0x0000000100000004#64, [⟨0x0000010200000001#64, []⟩]) := by decide
/-- V80: an RDREG that does not decode, once FAULTED, is refused and raises nothing. -/
theorem test_faulted_bad_reg_is_refused :
    after (agentStep .ctl (loaded sDone [⟨0x0000000000FF0005#64, []⟩] [] []))
      (fun t => (t.faultCmd, t.ctlIo.responses)) =
        some (0x00000000000A0005#64, [⟨0x0000000400000001#64, []⟩]) := by decide

/-! ### Cases that meet the hypotheses of the obligations -/

/-- A WRITE whose payload fits, and the largest size. -/
theorem test_meets_DecodeInvertsEncode : (Instr.writeAll 2#32 [0x61#8, 0x62#8]).wellFormed = true ∧
    (Instr.create 0xFFFFFFFF#32).wellFormed = true := by decide

theorem test_meets_EncodeInvertsDecode : ∃ i, decode .prod (encode (.writePart 2#32 [0x61#8, 0x62#8])) = .ok i :=
  ⟨_, rfl⟩

theorem test_meets_AssembledLinesDecode : ∃ p r, assemble "cons: POP 5".toList = some (p, r) :=
  ⟨.cons, ⟨0x0000000500000004#64, []⟩, by decide +kernel⟩

/-- The second case: a reserved index assembles (R67) and does not decode. -/
theorem test_meets_AssembledLinesDecode_reserved :
    assemble "ctl: RDREG 10".toList = some (.ctl, ⟨0x00000000000A0005#64, []⟩) ∧
    verdict .ctl ⟨0x00000000000A0005#64, []⟩ = .inl .badReg := by decide +kernel

/-- Both ends of a u32 operand and of an index, a name, and byte operands that fit their length and do not. -/
theorem test_meets_MnemonicsEncodeTheirRow :
    u32Operand "0".toList = some 0#32 ∧ u32Operand "0xFFFFFFFF".toList = some 0xFFFFFFFF#32 ∧
    regOperand "0".toList = some Reg.status.index ∧ regOperand "MAX_CAPACITY".toList = some Reg.maxCapacity.index ∧
    regOperand "255".toList = some 0xFF#8 ∧
    byteOperand [.bytes [0x61#8, 0x62#8]] = some [0x61#8, 0x62#8] ∧
    [0x61#8, 0x62#8].length = (2#32).toNat ∧ [0x61#8, 0x62#8].length ≠ (3#32).toNat ∧
    [0x61#8, 0x62#8].length < 2 ^ 32 := by decide +kernel

/-- A line on its mnemonic's port and one on another, as tokens. -/
theorem test_meets_LinesNameTheirPortAndMnemonic :
    lex .gap "cons: READ.PART 5".toList =
      some [.word "cons".toList, .colon, .word "READ.PART".toList, .word "5".toList] ∧
    lex .gap "prod: POP 5".toList =
      some [.word "prod".toList, .colon, .word "POP".toList, .word "5".toList] := by decide +kernel

theorem test_meets_PseudoInstructionsExpand :
    byteOperand [.bytes [0x61#8]] = some [0x61#8] ∧ byteOperand [.openBracket, .closeBracket] = some [] ∧
    [0x61#8].length < 2 ^ 32 := by decide

theorem test_meets_StepRunsDecodedCommand : sFresh.pick = some (.ctl, []) ∧
    sFresh.offered .ctl = some (encode (.create 8#32)) ∧ verdict .ctl (encode (.create 8#32)) = .inr (.create 8#32) := by
  decide

/-- A transfer in flight goes on, the request still at its port. -/
theorem test_meets_StepRunsDecodedCommand_in_flight :
    State.pick { sWriteCopy with sched := [.prod] } = some (.prod, []) ∧
    sWriteCopy.offered .prod = some (encode (.writeAll 2#32 [0x78#8, 0x79#8])) ∧
    verdict .prod (encode (.writeAll 2#32 [0x78#8, 0x79#8])) = .inr (.writeAll 2#32 [0x78#8, 0x79#8]) := by decide

/-- A word that does not decode, before a fault and once FAULTED. -/
theorem test_meets_UndecodedWordFaultsOrIsRefused :
    let s := loaded (buffer 8#32 0#32 0#32 []) [⟨0#64, []⟩] [] []
    State.pick { s with sched := [.ctl] } = some (.ctl, []) ∧ s.busy .ctl = false ∧
    s.offered .ctl = some ⟨0#64, []⟩ ∧ verdict .ctl ⟨0#64, []⟩ = .inl .illegalOpcode ∧ s.state ≠ .faulted ∧
    State.pick { faulted s with sched := [.ctl] } = some (.ctl, []) ∧ (faulted s).state = .faulted := by decide

theorem test_meets_EveryEnabledAgentMayStep :
    sIdle.enabled .ctl = true ∧ sIdle.enabled .prod = true ∧ sIdle.enabled .cons = true ∧
    sBoth.enabled .prod = true := by decide

theorem test_meets_PlacedWordRunsNext : decodeTableWord 64 0x0000000A00000001 = some (.create 10#32) ∧
    decodeTableWord 64 0x13 = some (.writePart 0#32 []) := by decide

/-- The placed command runs from reset: CREATE 10. -/
theorem test_placed_create_runs : after (step (State.reset.withFetchWord 64 0x0000000A00000001)) (·.capacity) =
    some 16#32 := by decide

/-- A final state. -/
theorem test_meets_RunsEndFinalOrStuck_final : State.reset.final = true ∧ step State.reset = .fault .runEnded :=
  ⟨by decide, rfl⟩

/-- A stuck state with every program done, and one with a frozen transfer. -/
theorem test_meets_RunsEndFinalOrStuck_stuck :
    step sDone = .fault .stuck ∧ step (loaded (faulted sWriteCopy) [] sWriteCopy.prodIo.program []) = .fault .stuck :=
  ⟨rfl, rfl⟩

/-- The invariant holds where a run is stuck. -/
theorem test_meets_RunsEndFinalOrStuck_invariant : Inv sDone where
  memory := by decide
  addresses := by decide
  capacity := .inl (by decide)
  unconfigured := by decide
  active := by decide
  noBuffer := by decide
  fault := by decide
  occupancy := by decide
  write := fun h => absurd rfl h
  read := fun h => absurd rfl h
  ports := by intro p; cases p <;> exact ⟨by decide, by decide, by decide⟩

theorem test_meets_EnabledStepsComplete : Inv sBoth ∧ sBoth.enabled .prod = true ∧ sBoth.enabled .cons = true :=
  ⟨inv_sBoth, by decide, by decide⟩

/-- An acceptance, a COPY and a PUB. -/
theorem test_meets_EveryStepConsumesWork : Inv sFresh ∧ (next? (step sFresh)).isSome = true ∧
    Inv sWriteCopy ∧ (next? (step { sWriteCopy with sched := [.prod] })).isSome = true ∧
    Inv sReadPub ∧ (next? (step { sReadPub with sched := [.cons] })).isSome = true :=
  ⟨inv_sFresh, by decide, inv_sWriteCopy, by decide, inv_sReadPub, by decide⟩

theorem test_meets_StepKeepsInv : Inv sFresh ∧ ∃ t, step sFresh = .next t := ⟨inv_sFresh, _, rfl⟩

/-- The UNCONFIGURED case and the ACTIVE case, of capacity 8. -/
theorem test_meets_ReachableStatesAreOccupiedWithinCapacity :
    (Reachable sFresh ∧ sFresh.state = .unconfigured) ∧
    ∃ t, Reachable t ∧ t.state = .active ∧ t.capacity = 8#32 :=
  ⟨⟨.boot .., by decide⟩, _, .step (.boot 31 _ _ _ [.ctl]) (rfl : step sFresh = .next _), rfl, by decide⟩

theorem test_meets_ExecKeepsStorageCanonical :
    Memory.wf sWriteCopy.storage ∧ (next? (exec (.writeAll 2#32 []) sWriteCopy)).isSome = true := by decide

/-- The least size and the largest. -/
theorem test_meets_CreateConfiguresTheBuffer : Inv sFresh ∧ sFresh.state = .unconfigured ∧
    (roundupPow2 1#32).toNat ≤ sFresh.maxCapacity.toNat ∧
    (roundupPow2 0x80000000#32).toNat ≤ sFresh.maxCapacity.toNat ∧ (0x80000000#32).toNat ≤ 2 ^ 31 :=
  ⟨inv_sFresh, by decide, by decide, by decide, by decide⟩

/-- Each cause, at the ends of its range: sizes 0 and 2^31 + 1, and the size past MAX_CAPACITY = 16. -/
theorem test_meets_CreateFaultsInOrder : sIdle.state = .active ∧ sFresh.state = .unconfigured ∧
    (0#32).toNat = 0 ∧ 2 ^ 31 < (0x80000001#32).toNat ∧
    (State.resetWith 4).state = .unconfigured ∧ 1 ≤ (17#32).toNat ∧ (17#32).toNat ≤ 2 ^ 31 ∧
    (State.resetWith 4).maxCapacity.toNat < (roundupPow2 17#32).toNat := by decide

/-- The least size and the largest, both powers of two, and sizes that are none. -/
theorem test_meets_RoundupIsLeastPowerOfTwo : (∃ j, (1#32).toNat = 2 ^ j) ∧ (∃ j, (0x80000000#32).toNat = 2 ^ j) ∧
    ¬ ∃ j, (3#32).toNat = 2 ^ j := by
  refine ⟨⟨0, rfl⟩, ⟨31, rfl⟩, ?_⟩
  rintro ⟨j, hj⟩
  match j with
  | 0 => exact absurd hj (by decide)
  | 1 => exact absurd hj (by decide)
  | j + 2 =>
    have h : 2 ^ (j + 2) = 4 * 2 ^ j := by ring
    rw [h] at hj
    have h3 : (3#32).toNat = 3 := rfl
    omega

theorem test_meets_DestroyReleasesTheBuffer :
    sIdle.state = .active ∧ sIdle.prod.phase = .idle ∧ sIdle.cons.phase = .idle := by decide

/-- No buffer; a WRITE in flight; a READ in flight. -/
theorem test_meets_DestroyFaultsInOrder : sFresh.state = .unconfigured ∧
    (sWriteCopy.state = .active ∧ sWriteCopy.prod.phase ≠ .idle) ∧
    (sReadPub.state = .active ∧ sReadPub.cons.phase ≠ .idle) := by decide

theorem test_meets_TransfersNeedABuffer :
    sFresh.state = .unconfigured ∧ sFresh.prod.phase = .idle ∧ sFresh.cons.phase = .idle := by decide

/-- The 3 free bytes exactly, and one more. -/
theorem test_meets_WriteSnapSnapshots : sIdle.state = .active ∧ sIdle.prod.phase = .idle ∧
    (3#32).toNat ≤ (sIdle.capacity - (sIdle.writeSeq - sIdle.readSeq)).toNat ∧
    (sIdle.capacity - (sIdle.writeSeq - sIdle.readSeq)).toNat < (4#32).toNat := by decide

theorem test_meets_WriteCopyStoresThePayload :
    Inv sWriteCopy ∧ sWriteCopy.state ≠ .faulted ∧ sWriteCopy.prod.phase = .copy :=
  ⟨inv_sWriteCopy, by decide, by decide⟩

theorem test_meets_WritePubPublishes : sWritePub.state ≠ .faulted ∧ sWritePub.prod.phase = .pub ∧ Inv sWritePub :=
  ⟨by decide, by decide, inv_sWritePub⟩

/-- The 3 free bytes exactly, for both forms, and the empty transfer. -/
theorem test_meets_WholeWriteAppends : Inv sIdle ∧ sIdle.state = .active ∧ sIdle.prod.phase = .idle ∧
    [0x61#8, 0x62#8, 0x63#8].length = (3#32).toNat ∧ (3#32).toNat ≤ sIdle.free.toNat ∧
    ([] : List Byte).length = (0#32).toNat :=
  ⟨inv_sIdle, by decide, by decide, by decide, by decide, by decide⟩

/-- The 5 buffered bytes exactly, and one more. -/
theorem test_meets_ReadSnapSnapshots : sIdle.state = .active ∧ sIdle.cons.phase = .idle ∧
    (5#32).toNat ≤ (sIdle.writeSeq - sIdle.readSeq).toNat ∧
    (sIdle.writeSeq - sIdle.readSeq).toNat < (6#32).toNat := by decide

theorem test_meets_ReadCopyTakesTheSegments :
    Inv sReadCopy ∧ sReadCopy.state ≠ .faulted ∧ sReadCopy.cons.phase = .copy :=
  ⟨inv_sReadCopy, by decide, by decide⟩

theorem test_meets_ReadPubPublishes : sReadPub.state ≠ .faulted ∧ sReadPub.cons.phase = .pub ∧ Inv sReadPub :=
  ⟨by decide, by decide, inv_sReadPub⟩

theorem test_meets_WholeReadTakes : Inv sIdle ∧ sIdle.state = .active ∧ sIdle.cons.phase = .idle ∧
    (5#32).toNat ≤ sIdle.level.toNat :=
  ⟨inv_sIdle, by decide, by decide, by decide⟩

/-- An ACTIVE block with nothing buffered, at offset 6 of 8 (E5). -/
theorem inv_empty : Inv (buffer 8#32 6#32 6#32 []) where
  memory := by decide
  addresses := by decide
  capacity := .inr ⟨3, by decide, by decide⟩
  unconfigured := by decide
  active := by decide
  noBuffer := by decide
  fault := by decide
  occupancy := by decide
  write := fun h => absurd rfl h
  read := fun h => absurd rfl h
  ports := by intro p; cases p <;> exact ⟨by decide, by decide, by decide⟩

/-- E5: four bytes across the wrap point; and the length at the top of its range. -/
theorem test_meets_WriteThenReadRoundTrips :
    let s := buffer 8#32 6#32 6#32 []
    Inv s ∧ s.state = .active ∧ s.prod.phase = .idle ∧ s.cons.phase = .idle ∧ s.writeSeq = s.readSeq ∧
      [0x57#8, 0x58#8, 0x59#8, 0x5A#8].length = (4#32).toNat ∧ (4#32).toNat ≤ s.capacity.toNat ∧
      (8#32).toNat ≤ s.capacity.toNat :=
  ⟨inv_empty, by decide, by decide, by decide, by decide, by decide, by decide, by decide⟩

/-- Full and empty, with both ports idle. -/
theorem test_meets_ZeroLengthTransfersDoNothing :
    (Inv sIdle ∧ sIdle.state = .active ∧ sIdle.prod.phase = .idle ∧ sIdle.cons.phase = .idle) ∧
    (Inv (buffer 8#32 6#32 6#32 []) ∧ (buffer 8#32 6#32 6#32 []).level = 0#32) :=
  ⟨⟨inv_sIdle, by decide, by decide, by decide⟩, inv_empty, by decide⟩

/-- A full buffer, for the partial WRITE with nothing free. -/
theorem test_meets_ZeroLengthTransfersDoNothing_full :
    let s := buffer 8#32 0#32 8#32 []
    Inv s ∧ s.state = .active ∧ s.prod.phase = .idle ∧ s.free = 0#32 ∧ [0x7A#8].length = (1#32).toNat :=
  ⟨{  memory := by decide
      addresses := by decide
      capacity := .inr ⟨3, by decide, by decide⟩
      unconfigured := by decide
      active := by decide
      noBuffer := by decide
      fault := by decide
      occupancy := by decide
      write := fun h => absurd rfl h
      read := fun h => absurd rfl h
      ports := by intro p; cases p <;> exact ⟨by decide, by decide, by decide⟩ },
    by decide, by decide, by decide, by decide⟩

theorem test_meets_RdregAnswersTheRegisterValue : Inv sIdle ∧ (sIdle.regval .level).toNat = 5 ∧
    (sIdle.regval .free).toNat = 3 :=
  ⟨inv_sIdle, by decide, by decide⟩

/-- An RDREG, another command and a word that does not decode, at idle ports of a FAULTED block. -/
theorem test_meets_FaultedBlockServesOnlyRdreg :
    let s := loaded (faulted sIdle) [encode (.rdreg .status)] [⟨0#64, []⟩] [encode (.readAll 2#32)]
    s.state = .faulted ∧ s.busy .ctl = false ∧ s.offered .ctl = some (encode (.rdreg .status)) ∧
      verdict .ctl (encode (.rdreg .status)) = .inr (.rdreg .status) ∧
      s.busy .prod = false ∧ s.offered .prod = some ⟨0#64, []⟩ ∧ verdict .prod ⟨0#64, []⟩ = .inl .illegalOpcode ∧
      s.busy .cons = false ∧ s.offered .cons = some (encode (.readAll 2#32)) ∧
      verdict .cons (encode (.readAll 2#32)) = .inr (.readAll 2#32) := by decide

/-- A frozen WRITE, with another agent's step still possible. -/
theorem test_meets_FaultFreezesTransfers : (faulted sWriteCopy).state = .faulted ∧
    (faulted sWriteCopy).busy .prod = true ∧ (next? (step { faulted sWriteCopy with sched := [.ctl] })).isSome = true := by
  decide

theorem test_meets_FirstFaultIsKept : (faulted sIdle).state = .faulted ∧
    (next? (step { faulted sIdle with sched := [.ctl] })).isSome = true := by decide

/-- A step that enters FAULTED (DESTROY_BUSY), and a COPY and a PUB. -/
theorem test_meets_FaultsArePrecise :
    sWriteCopy.state ≠ .faulted ∧ after (step { sWriteCopy with sched := [.ctl] }) (·.state) = some .faulted ∧
    (sWriteCopy.busy .prod = true ∧ (next? (agentStep .prod sWriteCopy)).isSome = true) ∧
    (sReadPub.busy .cons = true ∧ (next? (agentStep .cons sReadPub)).isSome = true) := by decide

/-- A CREATE, a DESTROY and a fault, as steps. -/
theorem test_meets_StateMovesOnlyByLifecycleAndFaults :
    after (step sFresh) (·.state) = some .active ∧
    after (step { sIdle with sched := [.ctl] }) (·.state) = some .unconfigured ∧
    after (step { sWriteCopy with sched := [.ctl] }) (·.state) = some .faulted ∧
    after (step { faulted sIdle with sched := [.prod] }) (·.state) = some .faulted := by decide

/-- The two PUBs move their own counter and go idle, and a DESTROY clears both counters and the capacity. -/
theorem test_meets_EachCounterHasOneWriter :
    after (step { sReadPub with sched := [.cons] }) (fun t => (t.readSeq, t.writeSeq, t.cons.phase)) =
      some (2#32, 5#32, .idle) ∧
    after (step { sWritePub with sched := [.prod] }) (fun t => (t.readSeq, t.writeSeq, t.prod.phase)) =
      some (0#32, 7#32, .idle) ∧
    after (step { sIdle with sched := [.ctl] }) (fun t => (t.writeSeq, t.capacity)) = some (0#32, 0#32) := by decide

theorem test_meets_AgentsTouchOnlyTheirOwn : (next? (agentStep .ctl sBoth)).isSome = true ∧
    (next? (agentStep .prod sBoth)).isSome = true ∧ (next? (agentStep .cons sBoth)).isSome = true := by decide

/-- The least capacity and the largest; nothing moved and a whole capacity moved. -/
theorem test_meets_SegmentsAreThePerByteOffsets : (1#32).toNat = 2 ^ 0 ∧ (0x80000000#32).toNat = 2 ^ 31 ∧
    (0#32).toNat ≤ (1#32).toNat ∧ (0x80000000#32).toNat ≤ (0x80000000#32).toNat := by decide

/-- A count past 2^32, and counts a whole capacity apart. -/
theorem test_meets_WraparoundDoesNotDisturbIndexing : (8#32).toNat = 2 ^ 3 ∧
    (offsetOf 8#32 (BitVec.ofNat 32 (2 ^ 32 + 3))).toNat = 3 ∧ 2 ^ 32 - 5 ≤ 2 ^ 32 + 3 ∧
    2 ^ 32 + 3 - (2 ^ 32 - 5) ≤ (8#32).toNat := by decide

theorem test_meets_TransfersInFlightAreDisjoint : Inv sBoth ∧ sBoth.prod.phase ≠ .idle ∧ sBoth.cons.phase ≠ .idle ∧
    1 < sBoth.prod.n.toNat ∧ 1 < sBoth.cons.n.toNat :=
  ⟨inv_sBoth, by decide, by decide, by decide, by decide⟩

/-- A WRITE's PUB, a READ's PUB and a DESTROY, as steps. -/
theorem test_meets_StepsActOnAnIdealQueue :
    (Inv sWritePub ∧ after (step { sWritePub with sched := [.prod] }) State.queue =
      some [0x61#8, 0x62#8, 0x63#8, 0x64#8, 0x65#8, 0x78#8, 0x79#8]) ∧
    (Inv sReadPub ∧ after (step { sReadPub with sched := [.cons] }) State.queue = some [0x63#8, 0x64#8, 0x65#8]) ∧
    (Inv sIdle ∧ after (step { sIdle with sched := [.ctl] }) State.queue = some []) :=
  ⟨⟨inv_sWritePub, by decide⟩, ⟨inv_sReadPub, by decide⟩, inv_sIdle, by decide⟩

/-- `sWritePub` with the WRITE of "abcde" before it in PROD's program, and its response. -/
def sHistory : State :=
  { sWritePub with
    prodIo := ⟨[encode (.writeAll 5#32 [0x61#8, 0x62#8, 0x63#8, 0x64#8, 0x65#8]),
      encode (.writeAll 2#32 [0x78#8, 0x79#8])], 1, [⟨responseWord .ok 5#32, []⟩]⟩ }

theorem inv_sHistory : Inv sHistory where
  memory := by decide
  addresses := by decide
  capacity := .inr ⟨3, by decide, by decide⟩
  unconfigured := by decide
  active := by decide
  noBuffer := by decide
  fault := by decide
  occupancy := by decide
  write := fun _ =>
    ⟨by decide, by decide, by decide, by decide, by decide, by decide, by decide, by decide, _, rfl, rfl⟩
  read := fun h => absurd rfl h
  ports := by intro p; cases p <;> exact ⟨by decide, by decide, by decide⟩

/-- Five bytes written and buffered, with the PUB of two more to come. -/
theorem test_meets_FirstInFirstOut : Inv sHistory ∧
    after (step { sHistory with sched := [.prod] }) (·.state) = some .active ∧
    bytesWritten sHistory.prodIo = [0x61#8, 0x62#8, 0x63#8, 0x64#8, 0x65#8] ∧
    bytesWritten sHistory.prodIo = bytesRead sHistory.consIo ++ sHistory.queue :=
  ⟨inv_sHistory, by decide, by decide, by decide⟩

/-- Before the first command: nothing written, nothing read, nothing buffered. -/
theorem test_meets_FirstInFirstOut_fresh : Inv sFresh ∧ (∃ t, step sFresh = .next t) ∧
    ¬ (sFresh.state = .active) ∧ bytesWritten sFresh.prodIo = bytesRead sFresh.consIo ++ sFresh.queue :=
  ⟨inv_sFresh, ⟨_, rfl⟩, by decide, by decide⟩

/-- The CREATE that succeeds, the DESTROY that succeeds and the DESTROY that faults. -/
theorem test_meets_LifecycleFrame :
    (Inv sFresh ∧ after (exec (.create 8#32) sFresh) (·.state) = some .active) ∧
    (Inv sIdle ∧ after (exec .destroy sIdle) (·.state) = some .unconfigured) ∧
    (Inv sBoth ∧ after (exec .destroy sBoth) (·.state) = some .faulted) :=
  ⟨⟨inv_sFresh, by decide⟩, ⟨inv_sIdle, by decide⟩, inv_sBoth, by decide⟩

/-- SNAP, the all-or-nothing failure, COPY and PUB. -/
theorem test_meets_WriteFrame : after (exec (.writePart 9#32 []) sIdle) (·.prod.phase) = some .copy ∧
    after (exec (.writeAll 9#32 []) sIdle) (·.prod.phase) = some .idle ∧
    after (exec (.writeAll 2#32 []) sWriteCopy) (·.prod.phase) = some .pub ∧
    after (exec (.writeAll 2#32 []) sWritePub) (·.prod.phase) = some .idle := by decide

theorem test_meets_ReadFrame : after (exec (.readPart 9#32) sIdle) (·.cons.phase) = some .copy ∧
    after (exec (.readAll 9#32) sIdle) (·.cons.phase) = some .idle ∧
    after (exec (.readAll 2#32) sReadCopy) (·.cons.phase) = some .pub ∧
    after (exec (.readAll 2#32) sReadPub) (·.cons.phase) = some .idle := by decide

theorem test_meets_RdregFrame : (next? (exec (.rdreg .maxCapacity) (faulted sBoth))).isSome = true := by decide

end Sys2Proof.Tests
end

/-! PROOFS. What reset leaves, and the fields of the two flag registers (10_state R25, R26, R30). -/

namespace Sys2Proof.Machine

/-! ### The reset state (10_state R30) -/

/-- A byte outside the capacity is the free value of the current draw (R17, R29). -/
theorem State.physByte_of_capacity_le {s : State} {o : Nat} (h : s.capacity.toNat ≤ o) :
    s.physByte o = Config.storageDraw s.draws o :=
  if_neg (Nat.not_lt.mpr h)

@[simp] theorem State.resetWith_io (k : Fin 32) (p : Port) : (State.resetWith k).io p = PortIo.reset := by
  cases p <;> rfl

/-- Reset leaves a port's pointer 0 and both its channels empty. -/
theorem State.resetWith_port (k : Fin 32) (p : Port) :
    ((State.resetWith k).io p).cp = 0 ∧ (State.resetWith k).offered p = none ∧
      (State.resetWith k).responseChannel p = none := by
  simp [State.offered, State.responseChannel, PortIo.reset]

/-- Settles O22: the storage bytes are free values because the capacity is 0, the ports are alike, and the rest is
read off the reset state. -/
theorem resetLeavesTheStatedValues : Obligations.ResetLeavesTheStatedValues :=
  ⟨⟨31, rfl⟩, fun k =>
    ⟨rfl, rfl, rfl, rfl, fun o => State.physByte_of_capacity_le (Nat.zero_le o), rfl, rfl, rfl, rfl, rfl, rfl, rfl,
      rfl, rfl, rfl, rfl, rfl, rfl, rfl, rfl, rfl, rfl, State.resetWith_port k⟩⟩

/-! ### The fields of STATUS (R25) and FAULT_CAUSE (R26) -/

/-- The fields of a word laid out as STATUS is: 28 bits, two single bits, 2 bits. -/
theorem statusLayout_fields (hi : BitVec 28) (b a : Bool) (lo : BitVec 2) :
    let w : BitVec 32 := hi ++ BitVec.ofBool b ++ BitVec.ofBool a ++ lo
    w.extractLsb' 0 2 = lo ∧ w.getLsbD 2 = a ∧ w.getLsbD 3 = b ∧ w.extractLsb' 4 28 = hi := by
  refine ⟨BitVec.extractLsb'_append_eq_right, ?_, ?_, ?_⟩
  · calc
      _ = (hi ++ BitVec.ofBool b ++ BitVec.ofBool a).getLsbD 0 := BitVec.getLsbD_append
      _ = a := by simp only [BitVec.getLsbD_append]; simp
  · calc
      _ = (hi ++ BitVec.ofBool b ++ BitVec.ofBool a).getLsbD 1 := BitVec.getLsbD_append
      _ = b := by simp only [BitVec.getLsbD_append]; simp
  · calc
      _ = (hi ++ BitVec.ofBool b ++ BitVec.ofBool a).extractLsb' 2 28 :=
        BitVec.extractLsb'_append_eq_of_le (by decide)
      _ = (hi ++ BitVec.ofBool b).extractLsb' 1 28 := BitVec.extractLsb'_append_eq_of_le (by decide)
      _ = hi := BitVec.extractLsb'_append_eq_left

/-- The fields of FAULT_CAUSE's layout. -/
theorem faultWord_fields (p : Port) (c : Cause) :
    (faultWord p c).extractLsb' 0 8 = c.code ∧ (faultWord p c).extractLsb' 8 2 = p.id ∧
      (faultWord p c).extractLsb' 10 22 = 0#22 := by
  refine ⟨BitVec.extractLsb'_append_eq_right, ?_, ?_⟩
  · calc
      _ = (0#22 ++ p.id).extractLsb' 0 2 := BitVec.extractLsb'_append_eq_of_le (by decide)
      _ = p.id := BitVec.extractLsb'_append_eq_right
  · calc
      _ = (0#22 ++ p.id).extractLsb' 2 22 := BitVec.extractLsb'_append_eq_of_le (by decide)
      _ = 0#22 := BitVec.extractLsb'_append_eq_left

theorem Life.code_le (l : Life) : l.code.toNat ≤ 2 := by cases l <;> decide

/-- STATUS and FAULT_CAUSE after reset (R30). -/
theorem State.resetWith_flags (k : Fin 32) :
    (State.resetWith k).regval .status = 0#32 ∧ (State.resetWith k).regval .faultCause = 0#32 := by
  have hFault : faultWord .ctl .none = 0#32 := by decide
  refine ⟨?_, hFault⟩
  simp [State.regval, State.statusReg, State.resetWith, ProdRegs.reset, ConsRegs.reset, Life.code]

/-- Settles O40: each field from the layout of its word, the reset values and the tables of numbers by evaluation. -/
theorem registerFieldsAreLaidOut : Obligations.RegisterFieldsAreLaidOut := by
  refine ⟨fun s => ?_, fun k => State.resetWith_flags k, rfl, rfl, rfl⟩
  obtain ⟨hState, hWbusy, hRbusy, hReserved⟩ :=
    statusLayout_fields 0#28 (decide (s.cons.phase ≠ .idle)) (decide (s.prod.phase ≠ .idle)) s.state.code
  exact ⟨hState, s.state.code_le, hWbusy, hRbusy, hReserved, faultWord_fields s.faultPort s.faultCause⟩

end Sys2Proof.Machine

/-! PROOFS. Every step keeps the invariant of Safety.lean, said once for each part of a step (raise, answer, SNAP, COPY,
PUB), so that it holds in every reachable state; and what it gives there (10_state R16, R31, R32). -/

namespace Sys2Proof.Machine

/-! ### What keeps a transfer in flight as the invariant describes it -/

/-- A WRITE in flight stays as described while its registers, `write_seq`, storage and its port stand still; the level
may fall, since CONS may publish (20_memory R50). -/
theorem WriteFlight.of_same {s t : State} (h : WriteFlight s) (hprod : t.prod = s.prod)
    (hcap : t.capacity = s.capacity) (hwrite : t.writeSeq = s.writeSeq) (hstore : t.storage = s.storage)
    (hlevel : t.level ≤ s.level) (ho : t.offered .prod = s.offered .prod) : WriteFlight t := by
  have hwin : t.window s.writeSeq s.prod.n.toNat = s.window s.writeSeq s.prod.n.toNat :=
    State.window_congr (fun _ _ => State.byteAt_congr hstore hcap _)
  constructor
  case stale => rw [hprod]; exact BitVec.le_trans hlevel h.stale
  case copied => rw [hprod, hwrite, hwin]; exact h.copied
  all_goals simp only [hprod, hcap, hwrite, ho]
  exacts [h.base, h.snapshot, h.fits, h.bound, h.all, h.payload, h.command]

/-- A READ in flight stays as described while its registers, `read_seq`, the buffered bytes and its port stand still;
the level may rise, since PROD may publish (20_memory R50). -/
theorem ReadFlight.of_same {s t : State} (h : ReadFlight s) (hcons : t.cons = s.cons)
    (hread : t.readSeq = s.readSeq)
    (hbytes : ∀ i, i < s.level.toNat →
      t.byteAt (s.readSeq + BitVec.ofNat 32 i) = s.byteAt (s.readSeq + BitVec.ofNat 32 i))
    (hlevel : s.level ≤ t.level) (ho : t.offered .cons = s.offered .cons) : ReadFlight t := by
  have hwin : t.window s.readSeq s.cons.n.toNat = s.window s.readSeq s.cons.n.toNat :=
    State.window_congr (fun i hi => hbytes i (Nat.lt_of_lt_of_le hi h.n_le_level))
  constructor
  case stale => rw [hcons]; exact BitVec.le_trans h.stale hlevel
  case copied => rw [hcons, hread, hwin]; exact h.copied
  all_goals simp only [hcons, hread, ho]
  exacts [h.base, h.fits, h.bound, h.all, h.command]

/-! ### The parts of a step keep the invariant -/

/-- The choice of an agent is the model's own bookkeeping (log 2). -/
theorem Inv.consume {s : State} (h : Inv s) (rest : List Port) : Inv (s.consume rest) :=
  { h with
    write := fun hp => (h.write hp).of_same rfl rfl rfl rfl (BitVec.le_refl _) rfl
    read := fun hp => (h.read hp).of_same rfl rfl (fun _ _ => rfl) (BitVec.le_refl _) rfl
    ports := fun p => (h.ports p).of_same (s.consume_io rest p) (s.consume_busy rest p) }

/-- The offered request of a port that another port's answer leaves alone. -/
theorem State.answer_offered_of_ne (s : State) {p q : Port} (hq : q ≠ p) (rsp : Rsp) (v : U32) (d : List Byte) :
    (s.answer p rsp v d).offered q = s.offered q := by
  simp only [State.offered, State.answer_io_of_ne s hq]

@[simp] theorem State.answer_busy (s : State) (p q : Port) (rsp : Rsp) (v : U32) (d : List Byte) :
    (s.answer p rsp v d).busy q = s.busy q := by
  cases q <;> simp [State.busy]

@[simp] theorem State.answer_level (s : State) (p : Port) (rsp : Rsp) (v : U32) (d : List Byte) :
    (s.answer p rsp v d).level = s.level := by
  simp [State.level]

/-- An idle port that answers the command at its pointer: no register that the invariant speaks of changes. -/
theorem Inv.answer {s : State} (h : Inv s) {p : Port} (hb : s.busy p = false)
    (hlt : (s.io p).cp < (s.io p).program.length) (rsp : Rsp) (v : U32) (d : List Byte) :
    Inv (s.answer p rsp v d) where
  memory := by simpa using h.memory
  addresses := by simpa using h.addresses
  capacity := by simpa using h.capacity
  unconfigured := by simpa using h.unconfigured
  active := by simpa using h.active
  noBuffer := by simpa using h.noBuffer
  fault := by simpa using h.fault
  occupancy := by simpa using h.occupancy
  write hp := by
    rw [State.answer_prod] at hp
    have hne : Port.prod ≠ p := fun heq => hp (State.not_busy_prod.mp (heq ▸ hb))
    exact (h.write hp).of_same (by simp) (by simp) (by simp) (by simp) (by simp)
      (s.answer_offered_of_ne hne rsp v d)
  read hp := by
    rw [State.answer_cons] at hp
    have hne : Port.cons ≠ p := fun heq => hp (State.not_busy_cons.mp (heq ▸ hb))
    exact (h.read hp).of_same (by simp) (by simp) (fun _ _ => State.byteAt_congr (by simp) (by simp) _) (by simp)
      (s.answer_offered_of_ne hne rsp v d)
  ports q := by
    by_cases hq : q = p
    · subst hq
      exact (h.ports q).of_answer (s.answer_io_self q rsp v d) hlt (by simpa using hb)
    · exact (h.ports q).of_same (s.answer_io_of_ne hq rsp v d) (by simp)

/-- The fault entry leaves transfers in flight as they are (60_exceptions R86, R87). -/
theorem Inv.raise {s : State} (h : Inv s) {p : Port} (hb : s.busy p = false)
    (hlt : (s.io p).cp < (s.io p).program.length) {cause : Cause} (hc : cause ≠ .none) (c : U64) :
    Inv (s.raise cause p c) := by
  have hEntered : Inv { s with state := .faulted, faultCause := cause, faultPort := p, faultCmd := c } :=
    { h with
      unconfigured := nofun
      active := nofun
      fault := ⟨fun _ => hc, fun _ => rfl⟩
      write := fun hp => (h.write hp).of_same rfl rfl rfl rfl (BitVec.le_refl _) rfl
      read := fun hp => (h.read hp).of_same rfl rfl (fun _ _ => rfl) (BitVec.le_refl _) rfl
      ports := fun q => (h.ports q).of_same (by cases q <;> rfl) (by cases q <;> rfl) }
  exact hEntered.answer (by cases p <;> exact hb) (by cases p <;> exact hlt) _ _ _

/-- A rounded size that passes CREATE's check is a legal capacity (40_lifecycle R69, R70). -/
theorem roundupPow2_legal {s : State} {size : U32} (h : roundupPow2 size ≤ s.maxCapacity) :
    ∃ k, k ≤ s.maxLog2.val ∧ (roundupPow2 size).toNat = 2 ^ k := by
  rw [BitVec.le_def, roundupPow2_toNat, State.maxCapacity_toNat] at h
  exact ⟨_, (Nat.pow_le_pow_iff_right (by norm_num)).mp h, roundupPow2_toNat size⟩

/-- Until the block is FAULTED the fault registers name no cause (10_state R23). -/
theorem Inv.faultCause_eq_none {s : State} (h : Inv s) (hs : s.state ≠ .faulted) : s.faultCause = .none := by
  by_contra hne
  exact hs (h.fault.mpr hne)

/-- CREATE's effect on an UNCONFIGURED block (40_lifecycle R69). -/
theorem Inv.configure {s : State} (h : Inv s) (hs : s.state = .unconfigured) {c : U32}
    (hc : ∃ k, k ≤ s.maxLog2.val ∧ c.toNat = 2 ^ k) : Inv (s.configure c) := by
  have hzero := h.unconfigured hs
  obtain ⟨-, -, hProd, hCons⟩ := h.noBuffer hzero
  have hpos : c ≠ 0#32 := by
    rintro rfl
    obtain ⟨k, -, hk⟩ := hc
    exact absurd hk.symm (by simp)
  exact {
    memory := Memory.wf_zeroBelow h.memory _
    addresses := fun d hd => absurd (h.addresses d (Memory.mem_zeroBelow hd).1) (by simp [hzero])
    capacity := .inr hc
    unconfigured := nofun
    active := fun _ => hpos
    noBuffer := fun h0 => absurd h0 hpos
    fault := by simp [h.faultCause_eq_none (by simp [hs] : s.state ≠ .faulted)]
    occupancy := by simp [State.level, BitVec.le_def]
    write := fun hp => absurd hProd hp
    read := fun hp => absurd hCons hp
    ports := fun p => (h.ports p).of_same (s.configure_io c p) (by cases p <;> rfl) }

/-- DESTROY's effect with both transfer ports idle (40_lifecycle R71). -/
theorem Inv.release {s : State} (h : Inv s) (hs : s.state = .active) (hProd : s.prod.phase = .idle)
    (hCons : s.cons.phase = .idle) : Inv s.release where
  memory := ⟨.nil, nofun⟩
  addresses := nofun
  capacity := .inl rfl
  unconfigured _ := rfl
  active := nofun
  noBuffer _ := ⟨rfl, rfl, hProd, hCons⟩
  fault := by simp [h.faultCause_eq_none (by simp [hs] : s.state ≠ .faulted)]
  occupancy := by simp [State.level]
  write hp := absurd hProd hp
  read hp := absurd hCons hp
  ports p := (h.ports p).of_same (s.release_io p) (by cases p <;> rfl)

/-- SNAP of an accepted WRITE (42_write R77). -/
theorem Inv.writeSnap {s : State} (h : Inv s) {r : Request} {ap : Bool} {len : U32} {src : List Byte}
    (ho : s.offered .prod = some r)
    (hd : decode .prod r = .ok (if ap then .writePart len src else .writeAll len src))
    (hs : s.state = .active) (hp : s.prod.phase = .idle) : Inv (writeSnap ap len src s) := by
  have hlt := State.cp_lt_of_offered ho
  rw [writeSnap_eq]
  split
  case isTrue => exact h.answer (State.not_busy_prod.mpr hp) hlt _ _ _
  case isFalse hmoves =>
    have hsrc : src.length = len.toNat := by
      have := wellFormed_of_decode hd
      cases ap <;> simpa [Instr.wellFormed, payloadFits] using this
    exact { h with
      noBuffer := fun h0 => absurd h0 (h.active hs)
      write := fun _ => {
        base := rfl
        snapshot := h.occupancy
        stale := BitVec.le_refl _
        fits := clamp_le_available _ _
        bound := clamp_le_requested _ _
        all := by rintro rfl; exact clamp_of_all (by simpa using hmoves)
        payload := hsrc
        copied := nofun
        command := ⟨r, ho, hd⟩ }
      read := fun hc => (h.read hc).of_same rfl rfl (fun _ _ => rfl) (BitVec.le_refl _) rfl
      ports := fun
        | .ctl => (h.ports .ctl).of_same rfl rfl
        | .prod => ⟨(h.ports .prod).answered, (h.ports .prod).inside, fun _ => hlt⟩
        | .cons => (h.ports .cons).of_same rfl rfl }

/-- SNAP of an accepted READ (41_read R73). -/
theorem Inv.readSnap {s : State} (h : Inv s) {r : Request} {ap : Bool} {len : U32}
    (ho : s.offered .cons = some r) (hd : decode .cons r = .ok (if ap then .readPart len else .readAll len))
    (hs : s.state = .active) (hc : s.cons.phase = .idle) : Inv (readSnap ap len s) := by
  have hlt := State.cp_lt_of_offered ho
  rw [readSnap_eq]
  split
  case isTrue => exact h.answer (State.not_busy_cons.mpr hc) hlt _ _ _
  case isFalse hmoves =>
    exact { h with
      noBuffer := fun h0 => absurd h0 (h.active hs)
      write := fun hp => (h.write hp).of_same rfl rfl rfl rfl (BitVec.le_refl _) rfl
      read := fun _ => {
        base := rfl
        stale := BitVec.le_refl _
        fits := clamp_le_available _ _
        bound := clamp_le_requested _ _
        all := by rintro rfl; exact clamp_of_all (by simpa using hmoves)
        copied := nofun
        command := ⟨r, ho, hd⟩ }
      ports := fun
        | .ctl => (h.ports .ctl).of_same rfl rfl
        | .prod => (h.ports .prod).of_same rfl rfl
        | .cons => ⟨(h.ports .cons).answered, (h.ports .cons).inside, fun _ => hlt⟩ }

/-- WRITE's COPY (42_write R78): the bytes stored are the payload's, and no buffered byte is among them. -/
theorem Inv.writeCopy {s t : State} (h : Inv s) (hp : s.prod.phase = .copy) (ht : writeCopy s = .next t) :
    Inv t := by
  obtain ⟨-, rfl⟩ := writeCopy_next ht
  have hbusy : s.prod.phase ≠ .idle := by simp [hp]
  have hw := h.write hbusy
  obtain ⟨k, -, hk⟩ := h.power (h.buffer_of_write hbusy)
  have hpend : s.busy .prod = true := by simp [State.busy, hp]
  exact { h with
    memory := State.copied_wf h.memory
    addresses := State.copied_addresses hk hw.n_le_capacity h.addresses
    noBuffer := fun h0 => absurd h0 (h.buffer_of_write hbusy)
    write := fun _ => { hw with
      copied := fun _ => by
        have := State.window_copied h.memory hk hw.n_le_capacity hw.n_le_payload { s.prod with phase := .pub }
        rwa [hw.base] at this }
    read := fun hc => (h.read hc).of_same rfl rfl (fun _ hi => h.byteAt_copied hbusy hi _) (BitVec.le_refl _) rfl
    ports := fun
      | .ctl => (h.ports .ctl).of_same rfl rfl
      | .prod => (h.ports .prod).of_same rfl hpend.symm
      | .cons => (h.ports .cons).of_same rfl rfl }

/-- READ's COPY (41_read R74): the data are the buffered bytes, and only CONS's registers change. -/
theorem Inv.readCopy {s t : State} (h : Inv s) (hc : s.cons.phase = .copy) (ht : readCopy s = .next t) :
    Inv t := by
  have hbusy : s.cons.phase ≠ .idle := by simp [hc]
  have hr := h.read hbusy
  obtain ⟨k, -, hk⟩ := h.power (h.buffer_of_read hbusy)
  have hpend : s.busy .cons = true := by simp [State.busy, hc]
  rw [readCopy_eq (readCopy_next ht).1 hk (h.read_le_capacity hbusy)] at ht
  cases ht
  exact { h with
    noBuffer := fun h0 => absurd h0 (h.buffer_of_read hbusy)
    write := fun hp => (h.write hp).of_same rfl rfl rfl rfl (BitVec.le_refl _) rfl
    read := fun _ => { hr with copied := fun _ => by rw [hr.base]; rfl }
    ports := fun
      | .ctl => (h.ports .ctl).of_same rfl rfl
      | .prod => (h.ports .prod).of_same rfl rfl
      | .cons => (h.ports .cons).of_same rfl hpend.symm }

/-- WRITE's PUB (42_write R79): the level rises by what the snapshot left room for. -/
theorem Inv.writePub {s t : State} (h : Inv s) (hs : s.state ≠ .faulted) (hp : s.prod.phase = .pub)
    (ht : writePub s = .next t) : Inv t := by
  have hbusy : s.prod.phase ≠ .idle := by simp [hp]
  have hw := h.write hbusy
  have hroom := hw.room
  have hcap := h.capacity_le
  have hlevel : (s.prod.base + s.prod.n - s.readSeq).toNat = s.level.toNat + s.prod.n.toNat := by
    rw [hw.base]; exact State.level_write (by omega)
  rw [writePub_eq hs] at ht
  cases ht
  have hPublished : Inv { s with writeSeq := s.prod.base + s.prod.n, prod := { s.prod with phase := .idle } } :=
    { h with
      noBuffer := fun h0 => absurd h0 (h.buffer_of_write hbusy)
      occupancy := by simp only [State.level, BitVec.le_def, hlevel]; exact hroom
      write := fun h0 => absurd rfl h0
      read := fun hc => (h.read hc).of_same rfl rfl (fun _ _ => rfl)
        (by simp only [State.level, BitVec.le_def, hlevel]; exact Nat.le_add_right _ _) rfl
      ports := fun
        | .ctl => (h.ports .ctl).of_same rfl rfl
        | .prod => ⟨(h.ports .prod).answered, (h.ports .prod).inside, nofun⟩
        | .cons => (h.ports .cons).of_same rfl rfl }
  exact hPublished.answer (p := .prod) rfl ((h.ports .prod).pending (by simp [State.busy, hp])) _ _ _

/-- READ's PUB (41_read R75): the level falls by what the snapshot showed. -/
theorem Inv.readPub {s t : State} (h : Inv s) (hs : s.state ≠ .faulted) (hc : s.cons.phase = .pub)
    (ht : readPub s = .next t) : Inv t := by
  have hbusy : s.cons.phase ≠ .idle := by simp [hc]
  have hr := h.read hbusy
  have hocc := BitVec.le_def.mp h.occupancy
  have hlevel : (s.writeSeq - (s.cons.base + s.cons.n)).toNat = s.level.toNat - s.cons.n.toNat := by
    rw [hr.base]; exact State.level_read hr.n_le_level
  rw [readPub_eq hs] at ht
  cases ht
  have hPublished : Inv { s with readSeq := s.cons.base + s.cons.n, cons := { s.cons with phase := .idle } } :=
    { h with
      noBuffer := fun h0 => absurd h0 (h.buffer_of_read hbusy)
      occupancy := by simp only [State.level, BitVec.le_def, hlevel]; exact (Nat.sub_le _ _).trans hocc
      write := fun hp => (h.write hp).of_same rfl rfl rfl rfl
        (by simp only [State.level, BitVec.le_def, hlevel]; exact Nat.sub_le _ _) rfl
      read := fun h0 => absurd rfl h0
      ports := fun
        | .ctl => (h.ports .ctl).of_same rfl rfl
        | .prod => (h.ports .prod).of_same rfl rfl
        | .cons => ⟨(h.ports .cons).answered, (h.ports .cons).inside, nofun⟩ }
  exact hPublished.answer (p := .cons) rfl ((h.ports .cons).pending (by simp [State.busy, hc])) _ _ _

/-! ### The invariant along runs -/

/-- Everything one agent can do keeps the invariant. -/
theorem Inv.of_moves {s t : State} {p : Port} (h : Inv s) (hm : Moves s p t) : Inv t := by
  cases hm with
  | refused _ r _ hb ho _ => exact h.answer hb (State.cp_lt_of_offered ho) _ _ _
  | raised _ r cause c _ hb ho hc =>
    have hCause : cause ≠ .none := by
      rcases hc with ⟨hd, -⟩ | ⟨hne, -⟩
      · rintro rfl
        exact decode_ne_none p r hd
      · exact hne
    exact h.raise hb (State.cp_lt_of_offered ho) hCause c
  | created r size ho _ hs _ _ hmax =>
    have hlt := State.cp_lt_of_offered ho
    exact (h.configure hs (roundupPow2_legal hmax)).answer (p := .ctl) rfl hlt _ _ _
  | destroyed r ho _ hs hp hc =>
    have hlt := State.cp_lt_of_offered ho
    exact (h.release hs hp hc).answer (p := .ctl) rfl hlt _ _ _
  | registerRead r reg ho _ => exact h.answer rfl (State.cp_lt_of_offered ho) _ _ _
  | wrote r ap len src ho hd hs hp => exact h.writeSnap ho hd hs hp
  | writeCopied _ _ hp ht => exact h.writeCopy hp ht
  | writePublished _ hs hp ht => exact h.writePub hs hp ht
  | didRead r ap len ho hd hs hc => exact h.readSnap ho hd hs hc
  | readCopied _ _ hc ht => exact h.readCopy hc ht
  | readPublished _ hs hc ht => exact h.readPub hs hc ht

/-- Every step keeps the invariant. -/
theorem Inv.of_step {s t : State} (h : Inv s) (hs : step s = .next t) : Inv t := by
  obtain ⟨p, rest, -, -, hm⟩ := moves_of_step hs
  exact (h.consume rest).of_moves hm

/-- The invariant holds at the start of every run. -/
theorem inv_boot (k : Fin 32) (ctl prod cons : List Request) (sched : List Port) :
    Inv (State.boot k ctl prod cons sched) where
  memory := ⟨.nil, nofun⟩
  addresses := nofun
  capacity := .inl rfl
  unconfigured _ := rfl
  active := nofun
  noBuffer _ := ⟨rfl, rfl, rfl, rfl⟩
  fault := ⟨nofun, fun hne => absurd rfl hne⟩
  occupancy := (by decide : 0#32 - 0#32 ≤ 0#32)
  write hp := absurd rfl hp
  read hc := absurd rfl hc
  ports
    | .ctl => ⟨rfl, Nat.zero_le _, nofun⟩
    | .prod => ⟨rfl, Nat.zero_le _, nofun⟩
    | .cons => ⟨rfl, Nat.zero_le _, nofun⟩

/-- The invariant holds in every reachable state. -/
theorem Reachable.inv {s : State} (h : Reachable s) : Inv s := by
  induction h with
  | boot k ctl prod cons sched => exact inv_boot k ctl prod cons sched
  | step _ hs ih => exact ih.of_step hs

/-- MAX_CAPACITY is at most 2^31 (00_scope R6). -/
theorem State.maxCapacity_le (s : State) : s.maxCapacity.toNat ≤ 2 ^ 31 := by
  rw [s.maxCapacity_toNat]
  exact Nat.pow_le_pow_right (by norm_num) (Nat.le_of_lt_succ s.maxLog2.isLt)

/-- The capacity of an ACTIVE block is legal (10_state R32). -/
theorem Inv.capacity_legal {s : State} (h : Inv s) (hs : s.state = .active) :
    ∃ k, s.capacity.toNat = 2 ^ k ∧ s.capacity.toNat ≤ s.maxCapacity.toNat := by
  rcases h.capacity with h0 | ⟨k, hmax, hk⟩
  · exact absurd (BitVec.eq_of_toNat_eq h0) (h.active hs)
  · refine ⟨k, hk, ?_⟩
    rw [hk, s.maxCapacity_toNat]
    exact Nat.pow_le_pow_right (by norm_num) hmax

/-- Settles O20, by the invariant of every reachable state. -/
theorem reachableStatesAreOccupiedWithinCapacity : Obligations.ReachableStatesAreOccupiedWithinCapacity := by
  intro s hReach
  have h := hReach.inv
  refine ⟨BitVec.le_def.mp h.occupancy, fun hs => ?_, fun hs => ?_⟩
  · exact ⟨h.unconfigured hs, h.noBuffer (h.unconfigured hs)⟩
  · obtain ⟨k, hk, hmax⟩ := h.capacity_legal hs
    exact ⟨⟨k, hk⟩, hk ▸ Nat.one_le_two_pow, hmax, s.maxCapacity_le, pow_dvd_word hk⟩

end Sys2Proof.Machine

/-! PROOFS. The indexer and two transfers in flight (20_memory R35 to R37, R49). -/

namespace Sys2Proof.Machine

/-! ### The indexer (20_memory R35 to R37) -/

/-- R36: the offsets of a transfer's bytes are those of the tail segment and then those of the wrap segment. -/
theorem segments_offsets {c : U32} {k : Nat} (hc : c.toNat = 2 ^ k) (base : U32) {n : U32} (hn : n ≤ c) :
    (List.range n.toNat).map (fun i => (offsetOf c (base + BitVec.ofNat 32 i)).toNat) =
      (List.range (segments c base n).tail).map (fun i => (segments c base n).off + i) ++
        List.range (segments c base n).wrap := by
  have hsum := segments_sum c base n
  rw [← hsum, List.range_add, List.map_append, List.map_map]
  congr 1
  · apply List.map_congr_left
    intro i hi
    have hi := List.mem_range.mp hi
    rw [segments_offset hc base hn (by omega), if_pos hi]
  · refine (List.map_congr_left fun i hi => ?_).trans (List.map_id _)
    have hi := List.mem_range.mp hi
    rw [Function.comp_apply, segments_offset hc base hn (by omega), if_neg (by omega), Nat.add_sub_cancel_left, id]

/-- Settles O49: off, tail and wrap by definition, the order by `segments_offsets`, the bounds by `segments_inside`. -/
theorem segmentsAreThePerByteOffsets : Obligations.SegmentsAreThePerByteOffsets := by
  intro c base n k hc hle
  have hn : n ≤ c := BitVec.le_def.mpr hle
  obtain ⟨hEnd, hWrap⟩ := segments_inside hc base hn
  exact ⟨rfl, rfl, rfl, (segments_offsets hc base hn).symm, hWrap, hEnd⟩

/-- R37: the offset of a wrapped count is the count modulo the capacity, which divides 2^32. -/
theorem offsetOf_wrapped {c : U32} {k : Nat} (hc : c.toNat = 2 ^ k) (count : Nat) :
    (offsetOf c (BitVec.ofNat 32 count)).toNat = count % c.toNat := by
  rw [offsetOf_toNat hc, BitVec.toNat_ofNat, Nat.mod_mod_of_dvd _ (pow_dvd_word hc)]

/-- R37: the difference of two wrapped counts is exact while it fits in a word. -/
theorem wrapped_sub_toNat {written read : Nat} (hle : read ≤ written) (hlt : written - read < 2 ^ 32) :
    (BitVec.ofNat 32 written - BitVec.ofNat 32 read).toNat = written - read := by
  obtain ⟨d, rfl⟩ := Nat.exists_eq_add_of_le hle
  rw [Nat.add_sub_cancel_left] at hlt ⊢
  rw [BitVec.ofNat_add, BitVec.add_comm, BitVec.add_sub_cancel, BitVec.toNat_ofNat, Nat.mod_eq_of_lt hlt]

/-- Settles O50: the capacity divides 2^32, and a level of at most the capacity fits in a word. -/
theorem wraparoundDoesNotDisturbIndexing : Obligations.WraparoundDoesNotDisturbIndexing := by
  intro c k hc
  refine ⟨fun count => ?_, fun written read hle hcap => ?_⟩
  · rw [offsetOf_wrapped hc, hc]
  · exact wrapped_sub_toNat hle (hcap.trans_lt c.isLt)

/-! ### Two transfers in flight (20_memory R49) -/

/-- Settles O51: the bytes of a READ in flight are buffered, and no buffered byte has the offset of a byte that a WRITE
in flight stores. -/
theorem transfersInFlightAreDisjoint : Obligations.TransfersInFlightAreDisjoint := by
  intro s h hProd hCons i j hi hj
  have hr := h.read hCons
  have hBuffered : j < s.level.toNat := hj.trans_le (BitVec.le_def.mp hr.n_le_level)
  rw [hr.base]
  exact (h.offset_ne hProd hBuffered hi).symm

end Sys2Proof.Machine

/-! PROOFS. The decoder's checks (30_encoding R64) and the byte order of words (R66). -/

namespace Sys2Proof

/-! ### Opcodes by number (30_encoding R55 to R58) -/

/-- R55's map leaves 0x0 and 0x6 to 0xF reserved. -/
theorem opcodeOf_eq_none_iff : ∀ x : BitVec 4, opcodeOf? x = none ↔ ¬ (1 ≤ x.toNat ∧ x.toNat ≤ 5) := by
  decide

theorem opcodeBits_defined (op : Opcode) : 1 ≤ (opcodeBits op).toNat ∧ (opcodeBits op).toNat ≤ 5 := by
  cases op <;> decide

theorem opcodePort_eq (op : Opcode) :
    opcodePort op =
      if (opcodeBits op).toNat = 3 then .prod else if (opcodeBits op).toNat = 4 then .cons else .ctl := by
  cases op <;> rfl

theorem usesAp_eq_false_iff (op : Opcode) :
    usesAp op = false ↔ (opcodeBits op).toNat ≠ 3 ∧ (opcodeBits op).toNat ≠ 4 := by
  cases op <;> decide

theorem usesReg_eq_false_iff (op : Opcode) : usesReg op = false ↔ (opcodeBits op).toNat ≠ 5 := by
  cases op <;> decide

theorem usesArg_eq_false_iff (op : Opcode) :
    usesArg op = false ↔ (opcodeBits op).toNat = 2 ∨ (opcodeBits op).toNat = 5 := by
  cases op <;> decide

/-! ### Fields and registers by number (30_encoding R54, R57, R59) -/

theorem apField_eq (c : U64) : apField c = BitVec.ofBool (c.getLsbD 4) := by
  rw [apField]
  ext i hi
  obtain rfl : i = 0 := by omega
  simp

theorem apField_ne_zero_iff (c : U64) : apField c ≠ 0#1 ↔ c.getLsbD 4 = true := by
  rw [apField_eq]
  cases c.getLsbD 4 <;> decide

/-- Choosing by the AP field is choosing by its bit. -/
theorem ite_apField (c : U64) (all part : Instr) :
    (if apField c = 0#1 then all else part) = if c.getLsbD 4 then part else all := by
  rw [apField_eq]
  cases c.getLsbD 4 <;> rfl

/-- R59's condition, as the four checks of R64 that give RESERVED_FIELD. -/
theorem reservedSet_iff (op : Opcode) (c : U64) :
    reservedSet op c = true ↔
      (rsvLowField c ≠ 0#11 ∨ rsvHighField c ≠ 0#8) ∨
      ((opcodeBits op).toNat ≠ 3 ∧ (opcodeBits op).toNat ≠ 4 ∧ c.getLsbD 4 = true) ∨
      ((opcodeBits op).toNat ≠ 5 ∧ (regField c).toNat ≠ 0) ∨
      (((opcodeBits op).toNat = 2 ∨ (opcodeBits op).toNat = 5) ∧ (argField c).toNat ≠ 0) := by
  have hReg : regField c ≠ 0#8 ↔ (regField c).toNat ≠ 0 := BitVec.toNat_ne_iff_ne.symm
  have hArg : argField c ≠ 0#32 ↔ (argField c).toNat ≠ 0 := BitVec.toNat_ne_iff_ne.symm
  simp only [reservedSet, Bool.or_eq_true, Bool.and_eq_true, Bool.not_eq_true', bne_iff_ne, apField_ne_zero_iff,
    hReg, hArg, usesAp_eq_false_iff, usesReg_eq_false_iff, usesArg_eq_false_iff, or_assoc, and_assoc]

/-- The registers in index order (10_state R24). -/
def Reg.inIndexOrder : List Reg :=
  [.status, .capacity, .readSeq, .writeSeq, .level, .free, .faultCause, .faultCmdLo, .faultCmdHi, .maxCapacity]

theorem Reg.ofIndex_eq (x : BitVec 8) :
    Reg.ofIndex? x = if 9 < x.toNat then none else some (Reg.inIndexOrder.getD x.toNat .status) := by
  unfold Reg.ofIndex?
  split
  case h_11 =>
    simp only [imp_false] at *
    rw [if_pos (by omega)]
  all_goals
    rename_i h
    rw [h]
    rfl

/-! ### The decoder's verdict, a lemma for each check (30_encoding R64) -/

section
variable {p : Port} {r : Request} {op : Opcode}

theorem decode_illegalOpcode (h : opcodeOf? (opcField r.word) = none) : decode p r = .error .illegalOpcode := by
  simp only [decode, h]

theorem decode_wrongPort (h : opcodeOf? (opcField r.word) = some op) (hp : opcodePort op ≠ p) :
    decode p r = .error .wrongPort := by
  simp only [decode, h, if_pos hp]

theorem decode_reservedField (h : opcodeOf? (opcField r.word) = some op) (hp : opcodePort op = p)
    (hr : reservedSet op r.word = true) : decode p r = .error .reservedField := by
  simp only [decode, h, if_neg (not_not.mpr hp), if_pos hr]

theorem decode_eq_decodeOperands (h : opcodeOf? (opcField r.word) = some op) (hp : opcodePort op = p)
    (hr : ¬ reservedSet op r.word = true) : decode p r = decodeOperands op r := by
  simp only [decode, h, if_neg (not_not.mpr hp), if_neg hr]

end

/-- The command of R64's last line: opcode, AP, REG and ARG as the fields of the word. -/
def commandOfFields (opc : Nat) (r : Request) : Instr :=
  if opc = 1 then .create (argField r.word)
  else if opc = 2 then .destroy
  else if opc = 3 then
    if r.word.getLsbD 4 then .writePart (argField r.word) r.payload else .writeAll (argField r.word) r.payload
  else if opc = 4 then
    if r.word.getLsbD 4 then .readPart (argField r.word) else .readAll (argField r.word)
  else .rdreg (Reg.inIndexOrder.getD (regField r.word).toNat .status)

/-- The last two checks of R64, and the command. -/
theorem decodeOperands_eq (op : Opcode) (r : Request) :
    decodeOperands op r =
      if (opcodeBits op).toNat = 5 ∧ 9 < (regField r.word).toNat then .error .badReg
      else if (opcodeBits op).toNat = 3 ∧ r.payload.length ≠ (argField r.word).toNat then .error .badPayload
      else .ok (commandOfFields (opcodeBits op).toNat r) := by
  cases op with
  | create => rfl
  | destroy => rfl
  | write =>
    by_cases h : r.payload.length = (argField r.word).toNat <;>
      simp [decodeOperands, payloadFits, ite_apField, opcodeBits, commandOfFields, h]
  | read => simp [decodeOperands, ite_apField, opcodeBits, commandOfFields]
  | rdreg =>
    by_cases h : 9 < (regField r.word).toNat <;>
      simp [decodeOperands, Reg.ofIndex_eq, opcodeBits, commandOfFields, h]

/-- Settles O3: with the opcode's number for the word's OPC bits, R64's checks are the port, the four parts of
`reservedSet_iff` and the checks of `decodeOperands_eq`, in that order. -/
theorem decodeFollowsCheckOrder : Obligations.DecodeFollowsCheckOrder := by
  intro p r c opc reg arg
  cases hop : opcodeOf? (opcField r.word) with
  | none =>
    have hIllegal : ¬ (1 ≤ opc ∧ opc ≤ 5) := (opcodeOf_eq_none_iff _).mp hop
    rw [if_pos hIllegal]
    exact decode_illegalOpcode hop
  | some op =>
    have hOpc : opc = (opcodeBits op).toNat := congrArg BitVec.toNat (opcodeBits_of_opcodeOf hop).symm
    have hReserved := reservedSet_iff op r.word
    rw [hOpc, if_neg (not_not.mpr (opcodeBits_defined op)), ← opcodePort_eq]
    refine ite_prop_iff_and.mpr ⟨decode_wrongPort hop, fun hPort => ?_⟩
    replace hPort := not_not.mp hPort
    have hFault := decode_reservedField hop hPort
    refine ite_prop_iff_and.mpr ⟨fun hRsv => hFault (hReserved.mpr (.inl hRsv)), fun hRsv => ?_⟩
    refine ite_prop_iff_and.mpr ⟨fun hAp => hFault (hReserved.mpr (.inr (.inl hAp))), fun hAp => ?_⟩
    refine ite_prop_iff_and.mpr ⟨fun hReg => hFault (hReserved.mpr (.inr (.inr (.inl hReg)))), fun hReg => ?_⟩
    refine ite_prop_iff_and.mpr ⟨fun hArg => hFault (hReserved.mpr (.inr (.inr (.inr hArg)))), fun hArg => ?_⟩
    have hClear : ¬ reservedSet op r.word = true :=
      fun h => (hReserved.mp h).elim hRsv (·.elim hAp (·.elim hReg hArg))
    rw [decode_eq_decodeOperands hop hPort hClear, decodeOperands_eq]
    refine ite_prop_iff_and.mpr ⟨fun hBadReg => if_pos hBadReg, fun hBadReg => ?_⟩
    exact ite_prop_iff_and.mpr ⟨fun hBadPayload => (if_neg hBadReg).trans (if_pos hBadPayload),
      fun hBadPayload => (if_neg hBadReg).trans (if_neg hBadPayload)⟩

/-! ### The byte order of words (30_encoding R66) -/

/-- The bytes of a word, the last one highest, make up the word. -/
theorem parseRequest_wordBytes (w : U64) (rest : List Byte) :
    parseRequest (wordBytes w ++ rest) = some ⟨w, rest⟩ := by
  have h : w.extractLsb' 56 8 ++ w.extractLsb' 48 8 ++ w.extractLsb' 40 8 ++ w.extractLsb' 32 8 ++
      w.extractLsb' 24 8 ++ w.extractLsb' 16 8 ++ w.extractLsb' 8 8 ++ w.extractLsb' 0 8 = w := by
    iterate 7 rw [BitVec.extractLsb'_append_extractLsb'_eq_extractLsb']
    · exact BitVec.extractLsb'_eq_self
    all_goals rfl
  exact congrArg (fun x => some (Request.mk x rest)) h

/-- Settles O6: the bytes by definition, and the request back by `parseRequest_wordBytes`. -/
theorem wordsAreLittleEndian : Obligations.WordsAreLittleEndian :=
  ⟨fun _ => rfl, fun _ => rfl, fun r => parseRequest_wordBytes r.word r.payload⟩

end Sys2Proof

/-! PROOFS. The rounded size of CREATE (40_lifecycle R70). -/

namespace Sys2Proof.Machine

/-- The search for the exponent, begun no later than the ceiling logarithm and with fuel enough to reach it, ends
there. -/
theorem log2From_eq_clog {s f k : Nat} (hle : k ≤ Nat.clog 2 s) (hfuel : Nat.clog 2 s ≤ k + f) :
    log2From s f k = Nat.clog 2 s := by
  induction f generalizing k with
  | zero => exact le_antisymm hle hfuel
  | succ f ih =>
    rw [log2From]
    split
    next hfits => exact le_antisymm hle (Nat.clog_le_of_le_pow hfits)
    next hshort =>
      have hlt : k < Nat.clog 2 s := (Nat.lt_clog_iff_pow_lt one_lt_two).mpr (not_le.mp hshort)
      exact ih hlt (by omega)

/-- The rounded size as a power of two, for the sizes R70 speaks of. -/
theorem roundupPow2_toNat_eq_pow_clog {s : U32} (hs : s.toNat ≤ 2 ^ 31) :
    (roundupPow2 s).toNat = 2 ^ Nat.clog 2 s.toNat := by
  have hfuel : Nat.clog 2 s.toNat ≤ 0 + 31 := Nat.clog_le_of_le_pow hs
  rw [roundupPow2_toNat, log2From_eq_clog (Nat.zero_le _) hfuel]

/-- A number that is no power of two lies strictly above the power its logarithm names. -/
theorem pow_log_lt_of_not_pow {n : Nat} (hpos : 1 ≤ n) (hn : ¬ ∃ j, n = 2 ^ j) : 2 ^ Nat.log 2 n < n :=
  lt_of_le_of_ne (Nat.pow_log_le_self 2 (Nat.ne_of_gt hpos)) fun h => hn ⟨_, h.symm⟩

/-- For a number that is no power of two, the ceiling logarithm is one more than the logarithm. -/
theorem clog_eq_log_succ_of_not_pow {n : Nat} (hpos : 1 ≤ n) (hn : ¬ ∃ j, n = 2 ^ j) :
    Nat.clog 2 n = Nat.log 2 n + 1 :=
  le_antisymm (Nat.clog_le_of_le_pow (Nat.lt_pow_succ_log_self one_lt_two n).le)
    ((Nat.lt_clog_iff_pow_lt one_lt_two).mpr (pow_log_lt_of_not_pow hpos hn))

/-- Settles O25: the exponent is the ceiling logarithm, and the clauses are its Galois connection with powers of two
and its value at powers and between them; the rule's nine values are evaluated. -/
theorem roundupIsLeastPowerOfTwo : Obligations.RoundupIsLeastPowerOfTwo := by
  refine ⟨fun s hpos hs => ?_, by decide⟩
  have hround := roundupPow2_toNat_eq_pow_clog hs
  refine ⟨⟨_, Nat.clog_le_of_le_pow hs, hround⟩, ?_, fun j hj => ?_, ?_, fun hnot => ?_⟩
  · rw [hround]
    exact Nat.le_pow_clog one_lt_two _
  · rw [hround]
    exact Nat.pow_le_pow_right two_pos (Nat.clog_le_of_le_pow hj)
  · rintro ⟨j, hj⟩
    apply BitVec.eq_of_toNat_eq
    rw [hround, hj, Nat.clog_pow 2 j one_lt_two]
  · rw [clog_eq_log_succ_of_not_pow hpos hnot] at hround
    have hbelow := pow_log_lt_of_not_pow hpos hnot
    exact ⟨hround, by rw [hround, pow_succ]; omega⟩

end Sys2Proof.Machine

/-! PROOFS. The three steps of READ as whole next states (41_read R73 to R75). -/

namespace Sys2Proof.Machine

/-! ### Which step a READ takes (41_read R72, 10_state R22) -/

theorem exec_readAll (len : U32) (s : State) :
    exec (.readAll len) s = readStep false len (encodeWord (.readAll len)) s := rfl

theorem exec_readPart (len : U32) (s : State) :
    exec (.readPart len) s = readStep true len (encodeWord (.readPart len)) s := rfl

section
variable {s : State} (ap : Bool) (len : U32) (c : U64)

theorem readStep_of_idle (hs : s.state = .active) (hc : s.cons.phase = .idle) :
    readStep ap len c s = .next (readSnap ap len s) := by
  simp [readStep, hc, readAccept, hs]

theorem readStep_of_copy (hc : s.cons.phase = .copy) : readStep ap len c s = readCopy s := by
  simp only [readStep, hc]

theorem readStep_of_pub (hc : s.cons.phase = .pub) : readStep ap len c s = readPub s := by
  simp only [readStep, hc]

end

/-! ### SNAP (R73) -/

/-- When the policy of R73 refuses: `AP = 0` and more requested than there is. -/
theorem nothingMoves_iff {ap : Bool} {requested available : U32} :
    nothingMoves ap requested available = true ↔ ap = false ∧ available.toNat < requested.toNat := by
  simp [nothingMoves, BitVec.lt_def]

/-- The clamp by the numbers of the two words. -/
theorem clamp_eq_ite_toNat (requested available : U32) :
    clamp requested available = if requested.toNat ≤ available.toNat then requested else available := rfl

/-- SNAP of a READ that moves what it can. -/
theorem readSnap_of_moves {ap : Bool} {len : U32} {s : State} (h : ap = true ∨ len.toNat ≤ s.level.toNat) :
    readSnap ap len s =
      { s with cons := ⟨.copy, len, ap, s.readSeq, s.writeSeq, clamp len s.level, s.cons.data⟩ } := by
  have hMoves : ¬ nothingMoves ap len s.level = true := by
    rw [nothingMoves_iff]
    rintro ⟨rfl, hlt⟩
    exact h.elim nofun (Nat.not_le.mpr hlt)
  rw [readSnap_eq, if_neg hMoves]

/-- SNAP of a READ.ALL that asks for more than is buffered. -/
theorem readSnap_of_level_lt {len : U32} {s : State} (h : s.level.toNat < len.toNat) :
    readSnap false len s = s.answer .cons .ok 0#32 [] := by
  rw [readSnap_eq, if_pos (nothingMoves_iff.mpr ⟨rfl, h⟩)]

/-- Settles O33: READ.PART always moves what it can, READ.ALL exactly when `valid`, which is the level, is enough. -/
theorem readSnapSnapshots : Obligations.ReadSnapSnapshots := by
  intro s len hs hc valid n
  have hn : clamp len s.level = n := clamp_eq_ite_toNat len s.level
  refine ⟨?_, fun hlt => ?_, fun hle => ?_⟩
  · rw [exec_readPart, readStep_of_idle _ _ _ hs hc, readSnap_of_moves (.inl rfl), hn]
  · rw [exec_readAll, readStep_of_idle _ _ _ hs hc, readSnap_of_level_lt hlt]
    rfl
  · rw [exec_readAll, readStep_of_idle _ _ _ hs hc, readSnap_of_moves (.inr hle), hn]

/-! ### COPY (R74) -/

/-- MemRead at an offset that exists (20_memory R33). -/
theorem State.memRead_of_lt {s : State} {o : Nat} (h : o < s.capacity.toNat) :
    s.memRead o = some (Memory.get s.storage o) := by
  rw [State.memRead_eq, if_pos h]

theorem State.window_getElem? (s : State) (base : U32) {i k : Nat} (hi : i < k) :
    (s.window base k)[i]? = some (s.byteAt (base + BitVec.ofNat 32 i)) := by
  rw [State.window, List.getElem?_map, List.getElem?_range hi, Option.map_some]

section
variable {s : State} {k i : Nat} {n : U32} (hk : s.capacity.toNat = 2 ^ k) (base : U32) (hn : n ≤ s.capacity)
include hk hn

/-- The first bytes of a transfer are those of the tail segment (20_memory R36). -/
theorem State.window_tail (hi : i < (segments s.capacity base n).tail) :
    (s.window base n.toNat)[i]? = s.memRead ((segments s.capacity base n).off + i) := by
  have hsum := segments_sum s.capacity base n
  have hin := segments_inside hk base hn
  have hlt : i < n.toNat := by omega
  rw [State.window_getElem? s base hlt, State.memRead_of_lt (by omega), State.byteAt,
    segments_offset hk base hn hlt, if_pos hi]

/-- The bytes after the tail segment are those of the wrap segment (20_memory R36). -/
theorem State.window_wrap (hi : i < (segments s.capacity base n).wrap) :
    (s.window base n.toNat)[(segments s.capacity base n).tail + i]? = s.memRead i := by
  have hsum := segments_sum s.capacity base n
  have hin := segments_inside hk base hn
  have hlt : (segments s.capacity base n).tail + i < n.toNat := by omega
  rw [State.window_getElem? s base hlt, State.memRead_of_lt (by omega), State.byteAt,
    segments_offset hk base hn hlt, if_neg (by omega), Nat.add_sub_cancel_left]

end

/-- Settles O34: the data are the window of `n` bytes from CONS.base on, which is the tail segment and then the wrap
segment. -/
theorem readCopyTakesTheSegments : Obligations.ReadCopyTakesTheSegments := by
  intro s len h hf hc off tail wrap
  have hbusy : s.cons.phase ≠ .idle := by simp [hc]
  obtain ⟨k, -, hk⟩ := h.power (h.buffer_of_read hbusy)
  have hn := h.read_le_capacity hbusy
  have hCopy := readCopy_eq hf hk hn
  refine ⟨s.window s.cons.base s.cons.n.toNat, ?_, ?_, ?_, fun i hi => ?_, fun i hi => ?_⟩
  · rw [exec_readAll, readStep_of_copy _ _ _ hc, hCopy]
  · rw [exec_readPart, readStep_of_copy _ _ _ hc, hCopy]
  · rw [State.window_length]
    exact (segments_sum s.capacity s.cons.base s.cons.n).symm
  · exact State.window_tail hk s.cons.base hn hi
  · exact State.window_wrap hk s.cons.base hn hi

/-! ### PUB (R75) -/

/-- Settles O35: both READs take `readPub`; a READ in flight has `read_seq` as its base. -/
theorem readPubPublishes : Obligations.ReadPubPublishes := by
  intro s len hs hc t
  have hPub : readPub s = .next t := readPub_eq hs
  refine ⟨?_, ?_, fun h => (h.read (by simp [hc])).base.symm⟩
  · rw [exec_readAll, readStep_of_pub _ _ _ hc, hPub]
  · rw [exec_readPart, readStep_of_pub _ _ _ hc, hPub]

end Sys2Proof.Machine

/-! PROOFS. The three steps of WRITE as whole next states (42_write R77 to R79). -/

namespace Sys2Proof.Machine

/-! ### Which step a WRITE takes (42_write R76, 10_state R21) -/

theorem exec_writeAll (len : U32) (src : List Byte) (s : State) :
    exec (.writeAll len src) s = writeStep false len src (encodeWord (.writeAll len src)) s := rfl

theorem exec_writePart (len : U32) (src : List Byte) (s : State) :
    exec (.writePart len src) s = writeStep true len src (encodeWord (.writePart len src)) s := rfl

section
variable {s : State} (ap : Bool) (len : U32) (src : List Byte) (c : U64)

theorem writeStep_of_idle (hs : s.state = .active) (hp : s.prod.phase = .idle) :
    writeStep ap len src c s = .next (writeSnap ap len src s) := by
  simp [writeStep, hp, writeAccept, hs]

theorem writeStep_of_copy (hp : s.prod.phase = .copy) : writeStep ap len src c s = writeCopy s := by
  simp only [writeStep, hp]

theorem writeStep_of_pub (hp : s.prod.phase = .pub) : writeStep ap len src c s = writePub s := by
  simp only [writeStep, hp]

end

/-! ### SNAP (R77) -/

/-- SNAP of a WRITE that moves what it can. -/
theorem writeSnap_of_moves {ap : Bool} {len : U32} {s : State} (src : List Byte)
    (h : ap = true ∨ len.toNat ≤ s.free.toNat) :
    writeSnap ap len src s =
      { s with prod := ⟨.copy, len, ap, src, s.writeSeq, s.readSeq, clamp len s.free⟩ } := by
  have hMoves : ¬ nothingMoves ap len s.free = true := by
    rw [nothingMoves_iff]
    rintro ⟨rfl, hlt⟩
    exact h.elim nofun (Nat.not_le.mpr hlt)
  rw [writeSnap_eq, if_neg hMoves]

/-- SNAP of a WRITE.ALL that asks for more than there is room for. -/
theorem writeSnap_of_free_lt {len : U32} {s : State} (src : List Byte) (h : s.free.toNat < len.toNat) :
    writeSnap false len src s = s.answer .prod .ok 0#32 [] := by
  rw [writeSnap_eq, if_pos (nothingMoves_iff.mpr ⟨rfl, h⟩)]

/-- Settles O29: WRITE.PART always moves what it can, WRITE.ALL exactly when `empty`, which is FREE, is enough. -/
theorem writeSnapSnapshots : Obligations.WriteSnapSnapshots := by
  intro s len src hs hp empty n
  have hn : clamp len s.free = n := clamp_eq_ite_toNat len s.free
  refine ⟨?_, fun hlt => ?_, fun hle => ?_⟩
  · rw [exec_writePart, writeStep_of_idle _ _ _ _ hs hp, writeSnap_of_moves src (.inl rfl), hn]
  · rw [exec_writeAll, writeStep_of_idle _ _ _ _ hs hp, writeSnap_of_free_lt src hlt]
    rfl
  · rw [exec_writeAll, writeStep_of_idle _ _ _ _ hs hp, writeSnap_of_moves src (.inr hle), hn]

/-! ### COPY (R78) -/

section
variable {s : State} {k : Nat} (hm : Memory.wf s.storage) (hk : s.capacity.toNat = 2 ^ k)
  (hn : s.prod.n ≤ s.capacity) (hp : s.prod.n.toNat ≤ s.prod.payload.length) (r : ProdRegs)
include hm hk hn hp

/-- WRITE's COPY stores the payload's first bytes in the tail segment: they begin the window from PROD.base on. -/
theorem State.memRead_copied_tail {i : Nat} (hi : i < (segments s.capacity s.prod.base s.prod.n).tail) :
    State.memRead { s with storage := s.copied, prod := r } ((segments s.capacity s.prod.base s.prod.n).off + i) =
      s.prod.payload[i]? := by
  have hsum := segments_sum s.capacity s.prod.base s.prod.n
  have hlt : i < s.prod.n.toNat := by omega
  have hWindow := State.window_tail (s := { s with storage := s.copied, prod := r }) hk s.prod.base hn hi
  rw [State.window_copied hm hk hn hp, List.getElem?_take_of_lt hlt] at hWindow
  exact hWindow.symm

/-- WRITE's COPY stores the payload's bytes after the tail segment in the wrap segment. -/
theorem State.memRead_copied_wrap {i : Nat} (hi : i < (segments s.capacity s.prod.base s.prod.n).wrap) :
    State.memRead { s with storage := s.copied, prod := r } i =
      s.prod.payload[(segments s.capacity s.prod.base s.prod.n).tail + i]? := by
  have hsum := segments_sum s.capacity s.prod.base s.prod.n
  have hlt : (segments s.capacity s.prod.base s.prod.n).tail + i < s.prod.n.toNat := by omega
  have hWindow := State.window_wrap (s := { s with storage := s.copied, prod := r }) hk s.prod.base hn hi
  rw [State.window_copied hm hk hn hp, List.getElem?_take_of_lt hlt] at hWindow
  exact hWindow.symm

/-- WRITE's COPY leaves every byte outside the two segments: none of them has the offset of a byte stored
(20_memory R36). -/
theorem State.memRead_copied_of_outside {a : Nat}
    (hTail : ¬ ((segments s.capacity s.prod.base s.prod.n).off ≤ a ∧
      a < (segments s.capacity s.prod.base s.prod.n).off + (segments s.capacity s.prod.base s.prod.n).tail))
    (hWrap : ¬ a < (segments s.capacity s.prod.base s.prod.n).wrap) :
    State.memRead { s with storage := s.copied, prod := r } a = s.memRead a := by
  have hsum := segments_sum s.capacity s.prod.base s.prod.n
  have hOther : ∀ i, i < s.prod.n.toNat →
      a ≠ (offsetOf s.capacity (s.prod.base + BitVec.ofNat 32 i)).toNat := by
    intro i hi
    rw [segments_offset hk s.prod.base hn hi]
    split <;> omega
  rw [State.memRead_eq, State.memRead_eq, (State.get_copied hm hk hn hp).2 a hOther]

end

/-- Settles O30: both WRITEs take `writeCopy`, and the invariant gives the transfer its buffer, its room and its
payload. -/
theorem writeCopyStoresThePayload : Obligations.WriteCopyStoresThePayload := by
  intro s len src h hf hc off tail wrap
  have hbusy : s.prod.phase ≠ .idle := by simp [hc]
  obtain ⟨k, -, hk⟩ := h.power (h.buffer_of_write hbusy)
  have hn := (h.write hbusy).n_le_capacity
  have hPayload := (h.write hbusy).n_le_payload
  have hCopy := writeCopy_eq hf hk hn hPayload
  refine ⟨{ s with storage := s.copied, prod := { s.prod with phase := .pub } }, ?_, ?_, rfl,
    fun i hi => ?_, fun i hi => ?_, fun a hTail hWrap => ?_⟩
  · rw [exec_writeAll, writeStep_of_copy _ _ _ _ hc, hCopy]
  · rw [exec_writePart, writeStep_of_copy _ _ _ _ hc, hCopy]
  · exact State.memRead_copied_tail h.memory hk hn hPayload _ hi
  · exact State.memRead_copied_wrap h.memory hk hn hPayload _ hi
  · exact State.memRead_copied_of_outside h.memory hk hn hPayload _ hTail hWrap

/-! ### PUB (R79) -/

/-- Settles O31: both WRITEs take `writePub`; a WRITE in flight has `write_seq` as its base. -/
theorem writePubPublishes : Obligations.WritePubPublishes := by
  intro s len src hs hp t
  have hPub : writePub s = .next t := writePub_eq hs
  refine ⟨?_, ?_, fun h => (h.write (by simp [hp])).base.symm⟩
  · rw [exec_writeAll, writeStep_of_pub _ _ _ _ hp, hPub]
  · rw [exec_writePart, writeStep_of_pub _ _ _ _ hp, hPub]

end Sys2Proof.Machine

/-! PROOFS. RDREG as a whole next state (43_register_access R80, R81). -/

namespace Sys2Proof.Machine

/-- RDREG has no check and no second step: in every STATE it answers the register's value and moves on. -/
theorem exec_rdreg (reg : Reg) (s : State) : exec (.rdreg reg) s = .next (s.answer .ctl .ok (s.regval reg) []) := rfl

/-- An OK answer on CTL, written out: only CTL's pointer and responses change. -/
theorem State.answer_ctl_ok (s : State) (v : U32) :
    s.answer .ctl .ok v [] = { s with ctlIo := { s.ctlIo with
      cp := s.ctlIo.cp + 1
      responses := s.ctlIo.responses ++ [⟨v ++ 0#30 ++ 0#2, []⟩] } } := by
  rw [State.answer_eq, responseWord_ok]
  rfl

/-- What is buffered and what is free make up the capacity (10_state R16). -/
theorem Inv.level_add_free {s : State} (h : Inv s) : s.level.toNat + s.free.toNat = s.capacity.toNat := by
  rw [h.free_toNat]
  exact Nat.add_sub_cancel' (BitVec.le_def.mp h.occupancy)

/-- Settles O39: one equation for all registers, read at each of them through `regval`; the bounds are the occupancy
invariant. -/
theorem rdregAnswersTheRegisterValue : Obligations.RdregAnswersTheRegisterValue := by
  intro s answers bit
  have hAnswers (reg : Reg) : answers reg (s.regval reg) := by
    simp only [answers, exec_rdreg, State.answer_ctl_ok]
  exact ⟨hAnswers .status, hAnswers .capacity, hAnswers .readSeq, hAnswers .writeSeq, hAnswers .level, hAnswers .free,
    hAnswers .faultCause, hAnswers .faultCmdLo, hAnswers .faultCmdHi, hAnswers .maxCapacity,
    fun h => ⟨BitVec.le_def.mp h.occupancy, h.level_add_free⟩⟩

end Sys2Proof.Machine

/-! PROOFS. Faults (spec/60_exceptions.md): what the fault entry changes, what a FAULTED block still answers, what it
freezes, and that a fault is entered only by accepting a command. -/

namespace Sys2Proof

/-! ### The word of a decoded command (30_encoding R54, R59, R64) -/

/-- What the decoder has checked of a word that it reads as a command (R64). -/
theorem decode_eq_ok {p : Port} {r : Request} {i : Instr} (h : decode p r = .ok i) :
    ∃ op, opcodeOf? (opcField r.word) = some op ∧ reservedSet op r.word = false ∧ decodeOperands op r = .ok i := by
  match hop : opcodeOf? (opcField r.word) with
  | none => rw [decode_illegalOpcode hop] at h; cases h
  | some op =>
    by_cases hp : opcodePort op = p
    · by_cases hr : reservedSet op r.word = true
      · rw [decode_reservedField hop hp hr] at h; cases h
      · rw [decode_eq_decodeOperands hop hp hr] at h
        exact ⟨op, rfl, Bool.eq_false_iff.mpr hr, h⟩
    · rw [decode_wrongPort hop hp] at h; cases h

/-- The fields that are 0 in a word that passes R59's check. -/
theorem fields_of_not_reservedSet {op : Opcode} {c : U64} (h : reservedSet op c = false) :
    rsvLowField c = 0#11 ∧ rsvHighField c = 0#8 ∧ (usesAp op = false → apField c = 0#1) ∧
      (usesReg op = false → regField c = 0#8) ∧ (usesArg op = false → argField c = 0#32) := by
  simp only [reservedSet, Bool.or_eq_false_iff, bne_eq_false_iff_eq, Bool.and_eq_false_imp, Bool.not_eq_true',
    and_assoc] at h
  exact h

/-- A command of the decoder has the word's fields; those that its opcode does not use are 0 in both. -/
theorem encodeWord_of_decodeOperands {op : Opcode} {r : Request} {i : Instr} (hr : reservedSet op r.word = false)
    (h : decodeOperands op r = .ok i) :
    encodeWord i = commandWord (argField r.word) (regField r.word) (apField r.word) (opcodeBits op) := by
  obtain ⟨-, -, hAp, hReg, hArg⟩ := fields_of_not_reservedSet hr
  cases op with
  | create =>
    cases h
    rw [hAp rfl, hReg rfl, encodeWord]
  | destroy =>
    cases h
    rw [hAp rfl, hReg rfl, hArg rfl, encodeWord]
  | write =>
    simp only [decodeOperands] at h
    split at h
    · cases h
      rcases BitVec.eq_zero_or_eq_one (apField r.word) with ha | ha <;> simp [ha, hReg rfl, encodeWord]
    · cases h
  | read =>
    cases h
    rcases BitVec.eq_zero_or_eq_one (apField r.word) with ha | ha <;> simp [ha, hReg rfl, encodeWord]
  | rdreg =>
    simp only [decodeOperands] at h
    split at h
    · cases h
    · rename_i reg hIndex
      cases h
      rw [hAp rfl, hArg rfl, ← Reg.index_of_ofIndex hIndex, encodeWord]

/-- A word that decodes is the word of its command. -/
theorem encodeWord_of_decode {p : Port} {r : Request} {i : Instr} (h : decode p r = .ok i) :
    encodeWord i = r.word := by
  obtain ⟨op, hop, hr, hi⟩ := decode_eq_ok h
  obtain ⟨hLow, hHigh, -⟩ := fields_of_not_reservedSet hr
  rw [encodeWord_of_decodeOperands hr hi, opcodeBits_of_opcodeOf hop, commandWord_fields hLow hHigh]

end Sys2Proof

namespace Sys2Proof.Machine

/-! ### Fault entry (60_exceptions R86) -/

/-- An answer changes only the ports' records. -/
theorem State.answer_frame (s : State) (p : Port) (rsp : Rsp) (v : U32) (d : List Byte) :
    s.answer p rsp v d = { s with
      ctlIo := (s.answer p rsp v d).ctlIo, prodIo := (s.answer p rsp v d).prodIo
      consIo := (s.answer p rsp v d).consIo } := by
  cases p <;> rfl

/-- Settles O41: the fault entry writes four registers and then only answers. -/
theorem faultEntryRecordsTheCommand : Obligations.FaultEntryRecordsTheCommand := fun s cause p c =>
  ⟨State.answer_frame { s with state := .faulted, faultCause := cause, faultPort := p, faultCmd := c } p _ _ _,
    State.raise_io_self s cause p c, fun _ hq => State.raise_io_of_ne s hq cause c⟩

/-! ### What a FAULTED block answers (R88) -/

/-- An idle port accepts the request offered. -/
theorem agentStep_of_idle {s : State} {p : Port} {r : Request} (hb : s.busy p = false) (ho : s.offered p = some r) :
    agentStep p s = accept p r s := by
  simp [agentStep, hb, ho]

/-- An RDREG is served in every STATE. -/
theorem accept_rdreg {p : Port} {r : Request} {reg : Reg} (s : State) (hd : decode p r = .ok (.rdreg reg)) :
    p = .ctl ∧ accept p r s = .next (s.answer .ctl .ok (s.regval reg) []) := by
  refine ⟨(port_of_decode hd).symm, ?_⟩
  simp only [accept, hd, exec_rdreg]

/-- Once FAULTED every command but RDREG is refused at its idle port. -/
theorem exec_of_faulted {s : State} {i : Instr} (hs : s.state = .faulted) (hb : s.busy i.port = false)
    (hi : ∀ reg, i ≠ .rdreg reg) : exec i s = .next (s.refuse i.port) := by
  cases i with
  | create size => exact if_pos hs
  | destroy => exact if_pos hs
  | writeAll len src =>
    rw [exec_writeAll, writeStep, State.not_busy_prod.mp hb]
    exact if_pos hs
  | writePart len src =>
    rw [exec_writePart, writeStep, State.not_busy_prod.mp hb]
    exact if_pos hs
  | readAll len =>
    rw [exec_readAll, readStep, State.not_busy_cons.mp hb]
    exact if_pos hs
  | readPart len =>
    rw [exec_readPart, readStep, State.not_busy_cons.mp hb]
    exact if_pos hs
  | rdreg reg => exact absurd rfl (hi reg)

/-- Once FAULTED every request but an RDREG is refused, whether it decodes or not. -/
theorem accept_of_faulted {s : State} {p : Port} {r : Request} (hs : s.state = .faulted) (hb : s.busy p = false)
    (hd : ∀ reg, decode p r ≠ .ok (.rdreg reg)) : accept p r s = .next (s.refuse p) := by
  match hi : decode p r with
  | .error cause => simp only [accept, hi, if_pos hs]
  | .ok i =>
    obtain rfl := port_of_decode hi
    simp only [accept, hi]
    exact exec_of_faulted hs hb (by rintro reg rfl; exact hd reg hi)

/-- Settles O42: RDREG by its own rule, anything else by `refuse`. -/
theorem faultedBlockServesOnlyRdreg : Obligations.FaultedBlockServesOnlyRdreg := by
  intro s p r hs hb ho
  rw [agentStep_of_idle hb ho]
  refine ⟨fun reg hd => ?_, fun hd => ?_⟩
  · obtain ⟨rfl, hAccept⟩ := accept_rdreg s hd
    exact ⟨rfl, by rw [hAccept, State.answer_ctl_ok]⟩
  · exact ⟨s.refuse p, accept_of_faulted hs hb hd, s.answer_frame p _ _ _, s.refuse_io_self p,
      fun _ hq => s.refuse_io_of_ne hq⟩

/-! ### What a FAULTED block freezes (R87, R91) -/

/-- Once FAULTED an acceptance only answers. -/
theorem accept_answers_of_faulted {s : State} {p : Port} {r : Request} (hs : s.state = .faulted)
    (hb : s.busy p = false) : ∃ rsp v, accept p r s = .next (s.answer p rsp v []) := by
  by_cases hd : ∃ reg, decode p r = .ok (.rdreg reg)
  · obtain ⟨reg, hd⟩ := hd
    obtain ⟨rfl, hAccept⟩ := accept_rdreg s hd
    exact ⟨_, _, hAccept⟩
  · exact ⟨_, _, accept_of_faulted hs hb (not_exists.mp hd)⟩

/-- Once FAULTED a transfer in flight has no enabled step. -/
theorem State.not_enabled_of_faulted {s : State} {p : Port} (hs : s.state = .faulted) (hb : s.busy p = true) :
    s.enabled p = false := by
  simp [State.enabled, hb, hs]

/-- Once FAULTED an enabled agent is idle and has a command left. -/
theorem State.idle_of_enabled_of_faulted {s : State} {p : Port} (hs : s.state = .faulted)
    (he : s.enabled p = true) : s.busy p = false ∧ ∃ r, s.offered p = some r := by
  have hb : s.busy p = false := by
    by_contra hb
    rw [State.not_enabled_of_faulted hs (Bool.eq_true_of_not_eq_false hb)] at he
    cases he
  have hlt : (s.io p).cp < (s.io p).program.length := by simpa [State.enabled, hb] using he
  exact ⟨hb, _, List.getElem?_eq_getElem hlt⟩

/-- The step of a FAULTED block whose agent `p` is picked: an idle port answers, and nothing else happens. -/
theorem step_of_pick_of_faulted {s : State} {p : Port} {rest : List Port} (hs : s.state = .faulted)
    (hp : s.pick = some (p, rest)) :
    s.busy p = false ∧ ∃ rsp v, step s = .next ((s.consume rest).answer p rsp v []) := by
  obtain ⟨hb, r, ho⟩ := State.idle_of_enabled_of_faulted hs (State.enabled_of_pick hp)
  refine ⟨hb, ?_⟩
  have hb' : (s.consume rest).busy p = false := by rwa [State.consume_busy]
  rw [step_of_pick hp, agentStep_of_idle hb' (by rwa [State.consume_offered])]
  exact accept_answers_of_faulted hs hb'

/-- All that a step of a FAULTED block can do. -/
theorem step_next_of_faulted {s t : State} (hs : s.state = .faulted) (h : step s = .next t) :
    ∃ p rest rsp v, s.busy p = false ∧ t = (s.consume rest).answer p rsp v [] := by
  obtain ⟨p, rest, hp, -, -⟩ := agentStep_of_step h
  obtain ⟨hb, rsp, v, hStep⟩ := step_of_pick_of_faulted hs hp
  rw [hStep] at h
  cases h
  exact ⟨p, rest, rsp, v, hb, rfl⟩

/-- A FAULTED state is not final (70 R111). -/
theorem step_ne_runEnded_of_faulted {s : State} (hs : s.state = .faulted) : step s ≠ .fault .runEnded := by
  match hp : s.pick with
  | none => simp [step, machineStep, hp, State.endOfRun, State.final, hs]
  | some (p, rest) =>
    obtain ⟨-, rsp, v, hStep⟩ := step_of_pick_of_faulted hs hp
    simp [hStep]

/-- Settles O43: a step of a FAULTED block answers at an idle port, which is another one. -/
theorem faultFreezesTransfers : Obligations.FaultFreezesTransfers := by
  intro s p hs hb
  refine ⟨State.not_enabled_of_faulted hs hb, step_ne_runEnded_of_faulted hs, fun t h => ?_⟩
  obtain ⟨q, rest, rsp, v, hIdle, rfl⟩ := step_next_of_faulted hs h
  have hne : p ≠ q := by
    rintro rfl
    exact Bool.eq_false_iff.mp hIdle hb
  have hIo : ((s.consume rest).answer q rsp v []).io p = s.io p := by
    rw [State.answer_io_of_ne _ hne, State.consume_io]
  exact ⟨hIo, by simp, by simp, by simpa using hb, by simpa using hs⟩

/-- Settles O44: a step of a FAULTED block only answers. -/
theorem firstFaultIsKept : Obligations.FirstFaultIsKept := by
  intro s t hs h
  obtain ⟨p, rest, rsp, v, -, rfl⟩ := step_next_of_faulted hs h
  simp [hs]

/-! ### Faults are precise (R89) -/

/-- All that WRITE's PUB can do when it answers a next state (42_write R79). -/
theorem writePub_next {s t : State} (h : writePub s = .next t) :
    s.state ≠ .faulted ∧
      t = State.answer { s with writeSeq := s.prod.base + s.prod.n, prod := { s.prod with phase := .idle } }
        .prod .ok s.prod.n [] := by
  by_cases hs : s.state = .faulted
  · simp [writePub, hs] at h
  · rw [writePub_eq hs] at h
    cases h
    exact ⟨hs, rfl⟩

/-- All that READ's PUB can do when it answers a next state (41_read R75). -/
theorem readPub_next {s t : State} (h : readPub s = .next t) :
    s.state ≠ .faulted ∧
      t = State.answer { s with readSeq := s.cons.base + s.cons.n, cons := { s.cons with phase := .idle } }
        .cons .ok s.cons.n s.cons.data := by
  by_cases hs : s.state = .faulted
  · simp [readPub, hs] at h
  · rw [readPub_eq hs] at h
    cases h
    exact ⟨hs, rfl⟩

@[simp] theorem writeSnap_state (ap : Bool) (len : U32) (src : List Byte) (s : State) :
    (writeSnap ap len src s).state = s.state := by
  rw [writeSnap_eq]
  split
  · exact State.answer_state s _ _ _ _
  · rfl

@[simp] theorem readSnap_state (ap : Bool) (len : U32) (s : State) : (readSnap ap len s).state = s.state := by
  rw [readSnap_eq]
  split
  · exact State.answer_state s _ _ _ _
  · rfl

/-- COPY and PUB leave STATE and the fault registers. -/
theorem transferStep_keeps_fault {s t : State} {p : Port} (h : transferStep p s = .next t) :
    t.state = s.state ∧ t.faultCause = s.faultCause ∧ t.faultPort = s.faultPort ∧ t.faultCmd = s.faultCmd := by
  cases p with
  | ctl => cases h
  | prod =>
    simp only [transferStep] at h
    split at h
    · cases h
    · obtain ⟨-, rfl⟩ := writeCopy_next h
      exact ⟨rfl, rfl, rfl, rfl⟩
    · obtain ⟨-, rfl⟩ := writePub_next h
      exact ⟨rfl, rfl, rfl, rfl⟩
  | cons =>
    simp only [transferStep] at h
    split at h
    · cases h
    · obtain ⟨-, data, rfl⟩ := readCopy_next h
      exact ⟨rfl, rfl, rfl, rfl⟩
    · obtain ⟨-, rfl⟩ := readPub_next h
      exact ⟨rfl, rfl, rfl, rfl⟩

/-- The step of a busy port is its transfer's next step. -/
theorem agentStep_of_busy {s : State} {p : Port} (hb : s.busy p = true) : agentStep p s = transferStep p s :=
  if_pos hb

/-- The one kind of step that enters FAULTED: an idle port's acceptance, raising a cause with the request's word. -/
theorem Moves.raised_of_enters_faulted {s t : State} {p : Port} (hm : Moves s p t) (hs : s.state ≠ .faulted)
    (ht : t.state = .faulted) :
    s.busy p = false ∧ ∃ r cause, s.offered p = some r ∧ cause ≠ .none ∧ t = s.raise cause p r.word := by
  cases hm with
  | refused _ _ hFaulted _ _ _ => exact absurd hFaulted hs
  | raised _ r cause c _ hb ho hc =>
    refine ⟨hb, r, cause, ho, ?_⟩
    rcases hc with ⟨hd, rfl⟩ | ⟨hCause, i, hd, rfl⟩
    · exact ⟨by rintro rfl; exact decode_ne_none p r hd, rfl⟩
    · exact ⟨hCause, by rw [encodeWord_of_decode hd]⟩
  | created r size _ _ _ _ _ _ => cases ht
  | destroyed r _ _ _ _ _ => cases ht
  | registerRead r reg _ _ => exact absurd (by simpa using ht) hs
  | wrote r ap len src _ _ _ _ => exact absurd (by simpa using ht) hs
  | didRead r ap len _ _ _ _ => exact absurd (by simpa using ht) hs
  | writeCopied _ _ _ h =>
    obtain ⟨-, rfl⟩ := writeCopy_next h
    exact absurd ht hs
  | writePublished _ _ _ h =>
    obtain ⟨-, rfl⟩ := writePub_next h
    exact absurd ht hs
  | readCopied _ _ _ h =>
    obtain ⟨-, _, rfl⟩ := readCopy_next h
    exact absurd ht hs
  | readPublished _ _ _ h =>
    obtain ⟨-, rfl⟩ := readPub_next h
    exact absurd ht hs

/-- Settles O45: of all moves only an acceptance raises a fault, and the word of its command is the request's own. -/
theorem faultsArePrecise : Obligations.FaultsArePrecise := by
  refine ⟨fun s t hs h ht => ?_, fun s t p hb h => ?_⟩
  · obtain ⟨p, rest, hp, -, hm⟩ := moves_of_step h
    obtain ⟨hb, r, cause, ho, hCause, rfl⟩ := hm.raised_of_enters_faulted hs ht
    rw [State.consume_busy] at hb
    rw [State.consume_offered] at ho
    exact ⟨p, rest, r, cause, hp, hb, ho, hCause, rfl⟩
  · rw [agentStep_of_busy hb] at h
    exact transferStep_keeps_fault h

end Sys2Proof.Machine

/-! PROOFS. The end of a run (70_reset_and_hazards R111): an agent's enabled step is never the end of the run, so `step`
ends it exactly where no agent has one. -/

namespace Sys2Proof.Machine

/-! ### An idle port always answers (60_exceptions R85) -/

section
variable {s : State} (ap : Bool) (len : U32) (c : U64)

theorem writeStep_completes_of_idle (src : List Byte) (hp : s.prod.phase = .idle) :
    ∃ t, writeStep ap len src c s = .next t := by
  simp only [writeStep, hp, writeAccept]
  split_ifs <;> exact ⟨_, rfl⟩

theorem readStep_completes_of_idle (hc : s.cons.phase = .idle) : ∃ t, readStep ap len c s = .next t := by
  simp only [readStep, hc, readAccept]
  split_ifs <;> exact ⟨_, rfl⟩

end

theorem execCreate_completes (size : U32) (s : State) : ∃ t, execCreate size s = .next t := by
  simp only [execCreate]
  split_ifs <;> exact ⟨_, rfl⟩

theorem execDestroy_completes (s : State) : ∃ t, execDestroy s = .next t := by
  simp only [execDestroy]
  split_ifs <;> exact ⟨_, rfl⟩

/-- Every command accepted at its idle port completes the step. -/
theorem exec_completes_of_idle {s : State} {i : Instr} (hb : s.busy i.port = false) : ∃ t, exec i s = .next t := by
  cases i with
  | create size => exact execCreate_completes size s
  | destroy => exact execDestroy_completes s
  | writeAll len src => exact writeStep_completes_of_idle _ _ _ _ (State.not_busy_prod.mp hb)
  | writePart len src => exact writeStep_completes_of_idle _ _ _ _ (State.not_busy_prod.mp hb)
  | readAll len => exact readStep_completes_of_idle _ _ _ (State.not_busy_cons.mp hb)
  | readPart len => exact readStep_completes_of_idle _ _ _ (State.not_busy_cons.mp hb)
  | rdreg reg => exact ⟨_, exec_rdreg reg s⟩

/-- Every request accepted at an idle port completes the step, whether it decodes or not. -/
theorem accept_completes_of_idle {s : State} {p : Port} {r : Request} (hb : s.busy p = false) :
    ∃ t, accept p r s = .next t := by
  match hd : decode p r with
  | .ok i =>
    obtain rfl := port_of_decode hd
    simp only [accept, hd]
    exact exec_completes_of_idle hb
  | .error cause =>
    simp only [accept, hd]
    split_ifs <;> exact ⟨_, rfl⟩

/-! ### What a transfer's step can stop with -/

/-- The stops of COPY and PUB: frozen by a fault (60_exceptions R87), or an access that does not exist. -/
inductive Fault.OfTransfer : Fault → Prop
  | frozen : OfTransfer .frozen
  | storageOutOfRange : OfTransfer .storageOutOfRange
  | payloadTooShort : OfTransfer .payloadTooShort

theorem writeCopy_fault {s : State} {f : Fault} (h : writeCopy s = .fault f) : f.OfTransfer := by
  simp only [writeCopy] at h
  split at h
  · cases h; exact .frozen
  · split at h
    · cases h; exact .payloadTooShort
    · split at h
      · cases h; exact .storageOutOfRange
      · split at h
        · cases h; exact .storageOutOfRange
        · cases h

theorem readCopy_fault {s : State} {f : Fault} (h : readCopy s = .fault f) : f.OfTransfer := by
  simp only [readCopy] at h
  split at h
  · cases h; exact .frozen
  · split at h
    · cases h; exact .storageOutOfRange
    · split at h
      · cases h; exact .storageOutOfRange
      · cases h

theorem writePub_fault {s : State} {f : Fault} (h : writePub s = .fault f) : f.OfTransfer := by
  simp only [writePub] at h
  split at h
  · cases h; exact .frozen
  · cases h

theorem readPub_fault {s : State} {f : Fault} (h : readPub s = .fault f) : f.OfTransfer := by
  simp only [readPub] at h
  split at h
  · cases h; exact .frozen
  · cases h

/-- A busy port is in COPY or PUB, so its step stops only as one of these does. -/
theorem transferStep_fault {s : State} {p : Port} {f : Fault} (hb : s.busy p = true)
    (h : transferStep p s = .fault f) : f.OfTransfer := by
  cases p with
  | ctl => cases hb
  | prod =>
    simp only [transferStep] at h
    split at h
    next hp => simp [State.busy, hp] at hb
    next => exact writeCopy_fault h
    next => exact writePub_fault h
  | cons =>
    simp only [transferStep] at h
    split at h
    next hc => simp [State.busy, hc] at hb
    next => exact readCopy_fault h
    next => exact readPub_fault h

/-! ### Where `step` ends the run -/

/-- An enabled agent that is idle has a command left. -/
theorem State.offered_of_enabled_of_idle {s : State} {p : Port} (he : s.enabled p = true) (hb : s.busy p = false) :
    ∃ r, s.offered p = some r := by
  have hlt : (s.io p).cp < (s.io p).program.length := by simpa [State.enabled, hb] using he
  exact ⟨_, List.getElem?_eq_getElem hlt⟩

/-- An enabled agent's step is never the end of the run. -/
theorem agentStep_fault_of_enabled {s : State} {p : Port} {f : Fault} (he : s.enabled p = true)
    (h : agentStep p s = .fault f) : f.OfTransfer := by
  by_cases hb : s.busy p = true
  · exact transferStep_fault hb (agentStep_of_busy hb ▸ h)
  · have hIdle := Bool.eq_false_iff.mpr hb
    obtain ⟨r, ho⟩ := State.offered_of_enabled_of_idle he hIdle
    obtain ⟨t, ht⟩ := accept_completes_of_idle (r := r) hIdle
    rw [agentStep_of_idle hIdle ho, ht] at h
    cases h

/-- Where no agent is enabled, a step answers the end of the run. -/
theorem step_of_none_enabled {s : State} (h : ∀ p, s.enabled p = false) : step s = s.endOfRun := by
  simp only [step, machineStep, s.pick_eq_none.mpr h]

/-- A step that stops otherwise than a transfer does finds no enabled agent. -/
theorem none_enabled_of_step_fault {s : State} {f : Fault} (h : step s = .fault f) (hf : ¬ f.OfTransfer) :
    ∀ p, s.enabled p = false := by
  match hp : s.pick with
  | none => exact s.pick_eq_none.mp hp
  | some (p, rest) =>
    rw [step_of_pick hp] at h
    exact absurd (agentStep_fault_of_enabled (by simpa using State.enabled_of_pick hp) h) hf

/-- A final state, written out (70 R111). -/
theorem State.final_iff (s : State) :
    s.final = true ↔ (∀ p, (s.io p).cp = (s.io p).program.length) ∧ s.prod.phase = .idle ∧ s.cons.phase = .idle ∧
      s.state ≠ .faulted ∧ s.faultCause = .none := by
  have hPorts : (∀ p, (s.io p).cp = (s.io p).program.length) ↔
      s.ctlIo.cp = s.ctlIo.program.length ∧ s.prodIo.cp = s.prodIo.program.length ∧
        s.consIo.cp = s.consIo.program.length :=
    ⟨fun h => ⟨h .ctl, h .prod, h .cons⟩, fun ⟨hCtl, hProd, hCons⟩ p => by cases p <;> assumption⟩
  simp [hPorts, State.final, State.transferInFlight, State.busy, and_assoc]

/-- Where neither transfer port is busy, no port is. -/
theorem State.idle_of_phases {s : State} (hProd : s.prod.phase = .idle) (hCons : s.cons.phase = .idle) (p : Port) :
    s.busy p = false := by
  cases p with
  | ctl => rfl
  | prod => exact State.not_busy_prod.mpr hProd
  | cons => exact State.not_busy_cons.mpr hCons

/-- In a final state no agent has an enabled step. -/
theorem State.none_enabled_of_final {s : State} (h : s.final = true) (p : Port) : s.enabled p = false := by
  obtain ⟨hDone, hProd, hCons, -⟩ := s.final_iff.mp h
  simp [State.enabled, State.idle_of_phases hProd hCons p, hDone p]

theorem step_eq_runEnded_iff (s : State) : step s = .fault .runEnded ↔ s.final = true := by
  constructor
  · intro h
    rw [step_of_none_enabled (none_enabled_of_step_fault h nofun), State.endOfRun] at h
    by_contra hFinal
    rw [if_neg hFinal] at h
    cases h
  · intro hFinal
    rw [step_of_none_enabled (State.none_enabled_of_final hFinal), State.endOfRun, if_pos hFinal]

theorem step_eq_stuck_iff (s : State) :
    step s = .fault .stuck ↔ (∀ p, s.enabled p = false) ∧ ¬ s.final = true := by
  constructor
  · intro h
    have hNone := none_enabled_of_step_fault h nofun
    rw [step_of_none_enabled hNone, State.endOfRun] at h
    refine ⟨hNone, fun hFinal => ?_⟩
    rw [if_pos hFinal] at h
    cases h
  · rintro ⟨hNone, hFinal⟩
    rw [step_of_none_enabled hNone, State.endOfRun, if_neg hFinal]

/-! ### Stuck states are FAULTED -/

/-- An idle port without an enabled step has come to the end of its program. -/
theorem Inv.done_of_idle {s : State} (h : Inv s) {p : Port} (hb : s.busy p = false) (he : s.enabled p = false) :
    (s.io p).cp = (s.io p).program.length := by
  have hge : (s.io p).program.length ≤ (s.io p).cp := by simpa [State.enabled, hb] using he
  exact le_antisymm (h.ports p).inside hge

/-- Until the block is FAULTED, a port without an enabled step is idle. -/
theorem State.idle_of_not_enabled {s : State} (hs : s.state ≠ .faulted) {p : Port} (he : s.enabled p = false) :
    s.busy p = false := by
  by_contra hb
  simp [State.enabled, hb, hs] at he

/-- A block that is not FAULTED and has no enabled agent is in a final state. -/
theorem Inv.final_of_none_enabled {s : State} (h : Inv s) (hs : s.state ≠ .faulted)
    (hNone : ∀ p, s.enabled p = false) : s.final = true := by
  have hIdle (p : Port) : s.busy p = false := State.idle_of_not_enabled hs (hNone p)
  exact s.final_iff.mpr ⟨fun p => h.done_of_idle (hIdle p) (hNone p), State.not_busy_prod.mp (hIdle .prod),
    State.not_busy_cons.mp (hIdle .cons), hs, h.faultCause_eq_none hs⟩

/-- Settles O15: only where no agent is enabled does a step end the run, and there `final` decides how; in a stuck
state the block is FAULTED, or it would be final, and its idle ports are done. -/
theorem runsEndFinalOrStuck : Obligations.RunsEndFinalOrStuck := by
  intro s final
  refine ⟨(step_eq_runEnded_iff s).trans s.final_iff,
    (step_eq_stuck_iff s).trans (and_congr_right' (not_congr s.final_iff)), fun h hStuck => ?_⟩
  obtain ⟨hNone, hNotFinal⟩ := (step_eq_stuck_iff s).mp hStuck
  refine ⟨not_not.mp fun hs => hNotFinal (h.final_of_none_enabled hs hNone), ?_⟩
  by_cases hFrozen : s.busy .prod = true ∨ s.busy .cons = true
  · exact .inl hFrozen
  · obtain ⟨hProd, hCons⟩ := not_or.mp hFrozen
    have hIdle := State.idle_of_phases (State.not_busy_prod.mp (Bool.eq_false_iff.mpr hProd))
      (State.not_busy_cons.mp (Bool.eq_false_iff.mpr hCons))
    exact .inr fun p => h.done_of_idle (hIdle p) (hNone p)

end Sys2Proof.Machine

/-! PROOFS. Decoder and encoder undo each other (30_encoding R54 to R64), and the masks and matches of the opcode
table are the words of its rows. -/

namespace Sys2Proof

/-! ### Decoding an encoded command -/

/-- Every command's word has its opcode in OPC and no reserved bit set. -/
theorem wordForm (i : Instr) : Laws.WordForm.Statement i := by
  cases i with
  | create size => exact Laws.WordForm.create size
  | destroy => exact Laws.WordForm.destroy
  | writeAll len src => exact Laws.WordForm.writeAll len src
  | writePart len src => exact Laws.WordForm.writePart len src
  | readAll len => exact Laws.WordForm.readAll len
  | readPart len => exact Laws.WordForm.readPart len
  | rdreg reg => exact Laws.WordForm.rdreg reg

/-- The operands of a well-formed command come back from its request. -/
theorem decodeOperands_encode {i : Instr} (h : i.wellFormed = true) : decodeOperands i.opcode (encode i) = .ok i := by
  cases i with
  | create size => simp [Instr.opcode, decodeOperands, encode, encodeWord]
  | destroy => rfl
  | writeAll len src =>
    simp only [Instr.wellFormed] at h
    simp [Instr.opcode, decodeOperands, encode, encodeWord, Instr.payload, h]
  | writePart len src =>
    simp only [Instr.wellFormed] at h
    simp [Instr.opcode, decodeOperands, encode, encodeWord, Instr.payload, h]
  | readAll len => simp [Instr.opcode, decodeOperands, encode, encodeWord]
  | readPart len => simp [Instr.opcode, decodeOperands, encode, encodeWord]
  | rdreg reg => simp [Instr.opcode, decodeOperands, encode, encodeWord]

/-- Settles O1: the word's form passes the checks of opcode, port and reserved fields, and the operands come back. -/
theorem decodeInvertsEncode : Obligations.DecodeInvertsEncode := by
  intro i h
  obtain ⟨hOpcode, hReserved⟩ := wordForm i
  exact (decode_eq_decodeOperands (r := encode i) hOpcode rfl (Bool.eq_false_iff.mp hReserved)).trans
    (decodeOperands_encode h)

/-! ### Encoding a decoded command -/

/-- A decoded WRITE carries the request's payload (30_encoding R62). -/
theorem payload_of_decode {p : Port} {r : Request} {i : Instr} (h : decode p r = .ok i) (hp : i.port = .prod) :
    i.payload = r.payload := by
  obtain ⟨op, -, -, hi⟩ := decode_eq_ok h
  cases op with
  | create => cases hi; cases hp
  | destroy => cases hi; cases hp
  | write =>
    simp only [decodeOperands] at hi
    split at hi
    · cases hi
      split <;> rfl
    · cases hi
  | read =>
    cases hi
    split at hp <;> cases hp
  | rdreg =>
    simp only [decodeOperands] at hi
    split at hi <;> cases hi
    cases hp

/-- Settles O2, by what the decoder keeps of the word, the port and the payload. -/
theorem encodeInvertsDecode : Obligations.EncodeInvertsDecode := fun _ _ _ h =>
  ⟨encodeWord_of_decode h, wellFormed_of_decode h, port_of_decode h, payload_of_decode h⟩

/-- The decoder looks at the payload on PROD only (30_encoding R62, R64). -/
theorem decode_payload_irrelevant {p : Port} (hp : p ≠ .prod) (c : U64) (src pay : List Byte) :
    decode p ⟨c, src⟩ = decode p ⟨c, pay⟩ := by
  simp only [decode]
  split
  · rfl
  · rename_i op hop
    cases op with
    | write => exact (if_pos hp.symm).trans (if_pos hp.symm).symm
    | _ => rfl

/-- Exactly which requests decode to a command. -/
theorem decode_eq_ok_iff (p : Port) (c : U64) (src : List Byte) (i : Instr) :
    decode p ⟨c, src⟩ = .ok i ↔
      encodeWord i = c ∧ i.wellFormed = true ∧ i.port = p ∧ (i.port = .prod → i.payload = src) := by
  refine ⟨fun h => encodeInvertsDecode p _ i h, ?_⟩
  rintro ⟨rfl, hWf, rfl, hPayload⟩
  rw [← decodeInvertsEncode i hWf]
  by_cases hp : i.port = .prod
  · rw [← hPayload hp, encode]
  · exact decode_payload_irrelevant hp _ _ _

/-! ### Words under a mask (opcode_table.json) -/

/-- Appending words one by one, or the last five first. -/
theorem append_six_toNat {a b c d e f : Nat} (x : BitVec a) (y : BitVec b) (z : BitVec c) (u : BitVec d)
    (v : BitVec e) (w : BitVec f) :
    (x ++ y ++ z ++ u ++ v ++ w).toNat = (x ++ (y ++ z ++ u ++ v ++ w)).toNat := by
  simp only [BitVec.toNat_append, Nat.shiftLeft_or_distrib, ← Nat.shiftLeft_add, Nat.or_assoc, Nat.add_assoc]

/-- A command word as ARG above the low half. -/
theorem commandWord_eq_append (arg : U32) (reg : BitVec 8) (ap : BitVec 1) (opc : BitVec 4) :
    commandWord arg reg ap opc = arg ++ (0#8 ++ reg ++ 0#11 ++ ap ++ opc : BitVec 32) :=
  BitVec.eq_of_toNat_eq (append_six_toNat arg 0#8 reg 0#11 ap opc)

/-- RDREG's word, written out. -/
theorem commandWord_rdreg (ix : BitVec 8) :
    commandWord 0#32 ix 0#1 (opcodeBits .rdreg) = 0#40 ++ ix ++ 0x0005#16 := by
  have h (y : BitVec 40) :
      (y ++ ix ++ 0#11 ++ 0#1 ++ 5#4).toNat = (y ++ ix ++ (0#11 ++ 0#1 ++ 5#4)).toNat := by
    simp only [BitVec.toNat_append, Nat.shiftLeft_or_distrib, ← Nat.shiftLeft_add, Nat.or_assoc]
  exact BitVec.eq_of_toNat_eq (h 0#40)

/-- Two words made of parts are equal when the parts are. -/
theorem append_inj_iff {m n : Nat} {a a' : BitVec m} {b b' : BitVec n} : a ++ b = a' ++ b' ↔ a = a' ∧ b = b' := by
  refine ⟨fun h => ⟨?_, ?_⟩, by rintro ⟨rfl, rfl⟩; rfl⟩
  · have hHigh := congrArg (BitVec.extractLsb' n m) h
    rwa [BitVec.extractLsb'_append_eq_left, BitVec.extractLsb'_append_eq_left] at hHigh
  · have hLow := congrArg (BitVec.extractLsb' 0 n) h
    rwa [BitVec.extractLsb'_append_eq_right, BitVec.extractLsb'_append_eq_right] at hLow

/-- Every word is made of a high and a low part. -/
theorem exists_append (m n : Nat) (c : BitVec (m + n)) : ∃ (a : BitVec m) (b : BitVec n), c = a ++ b := by
  refine ⟨c.extractLsb' n m, c.extractLsb' 0 n, ?_⟩
  rw [BitVec.extractLsb'_append_extractLsb'_eq_extractLsb' (Nat.zero_add n).symm]
  exact BitVec.extractLsb'_eq_self.symm

/-- The mask of the rows that have ARG compares the low half. -/
theorem append_eq_iff_argMask (arg v : U32) (c : U64) :
    arg ++ v = c ↔ c &&& 0x00000000FFFFFFFF#64 = 0#32 ++ v ∧ arg = c.extractLsb' 32 32 := by
  obtain ⟨a, b, rfl⟩ := exists_append 32 32 c
  have hMask : 0x00000000FFFFFFFF#64 = 0#32 ++ BitVec.allOnes 32 := by decide
  rw [hMask, BitVec.and_append, BitVec.and_zero, BitVec.and_allOnes, append_inj_iff, append_inj_iff,
    BitVec.extractLsb'_append_eq_left, eq_comm (a := v)]
  tauto

/-- The mask of RDREG's row compares all but REG. -/
theorem append_eq_iff_regMask (ix : BitVec 8) (c : U64) :
    0#40 ++ ix ++ 0x0005#16 = c ↔ c &&& 0xFFFFFFFFFF00FFFF#64 = 0x5#64 ∧ ix = c.extractLsb' 16 8 := by
  obtain ⟨ab, d, rfl⟩ := exists_append 48 16 c
  obtain ⟨a, b, rfl⟩ := exists_append 40 8 ab
  have hMask : 0xFFFFFFFFFF00FFFF#64 = BitVec.allOnes 40 ++ 0#8 ++ BitVec.allOnes 16 := by decide
  have hMatch : 0x5#64 = 0#40 ++ 0#8 ++ 5#16 := by decide
  have hReg : BitVec.extractLsb' 16 8 (a ++ b ++ d) = b :=
    (BitVec.extractLsb'_append_eq_of_le (Nat.le_refl 16)).trans BitVec.extractLsb'_append_eq_right
  rw [hMask, hMatch, BitVec.and_append, BitVec.and_append, BitVec.and_zero, BitVec.and_allOnes, BitVec.and_allOnes,
    hReg, append_inj_iff, append_inj_iff, append_inj_iff, append_inj_iff, eq_comm (a := 0#40), eq_comm (a := 5#16)]
  tauto

/-- A command word without REG, by the mask of the rows that have ARG. -/
theorem commandWord_eq_iff (arg : U32) (ap : BitVec 1) (opc : BitVec 4) (c : U64) :
    commandWord arg 0#8 ap opc = c ↔
      c &&& 0x00000000FFFFFFFF#64 = 0#32 ++ (0#8 ++ 0#8 ++ 0#11 ++ ap ++ opc : BitVec 32) ∧
        arg = c.extractLsb' 32 32 := by
  rw [commandWord_eq_append, append_eq_iff_argMask]

/-- A command of CTL or CONS is decoded from its word alone. -/
theorem decode_eq_ok_iff_of_ne_prod {i : Instr} (hp : i.port ≠ .prod) (hWf : i.wellFormed = true) (c : U64)
    (src : List Byte) : decode i.port ⟨c, src⟩ = .ok i ↔ encodeWord i = c := by
  simp [decode_eq_ok_iff, hp, hWf]

/-- A WRITE is decoded from its word and a payload of as many bytes as its operand says. -/
theorem decode_eq_ok_iff_of_prod {i : Instr} {len : U32} {pay : List Byte} (hp : i.port = .prod)
    (hPay : i.payload = pay) (hWf : i.wellFormed = payloadFits len pay) (c : U64) (src : List Byte) :
    decode .prod ⟨c, src⟩ = .ok i ↔ encodeWord i = c ∧ pay = src ∧ src.length = len.toNat := by
  rw [decode_eq_ok_iff, hp, hPay, hWf, payloadFits, beq_iff_eq]
  constructor
  · rintro ⟨hWord, hLen, -, hSrc⟩
    exact ⟨hWord, hSrc rfl, hSrc rfl ▸ hLen⟩
  · rintro ⟨hWord, rfl, hLen⟩
    exact ⟨hWord, hLen, rfl, fun _ => rfl⟩

/-- Settles O4: a word decodes to a row's command when it is the command's word, which the row's mask compares. -/
theorem tableRowsAreExact : Obligations.TableRowsAreExact := by
  intro c src
  refine ⟨fun size => ?_, ?_, fun len pay => ?_, fun len pay => ?_, fun len => ?_, fun len => ?_, fun reg => ?_⟩
  · exact (decode_eq_ok_iff_of_ne_prod (i := .create size) nofun rfl c src).trans (commandWord_eq_iff size _ _ c)
  · rw [show c &&& 0xFFFFFFFFFFFFFFFF#64 = c from BitVec.and_allOnes, eq_comm (a := c)]
    exact decode_eq_ok_iff_of_ne_prod (i := .destroy) nofun rfl c src
  · exact (decode_eq_ok_iff_of_prod (i := .writeAll len pay) rfl rfl rfl c src).trans
      ((and_congr_left' (commandWord_eq_iff len _ _ c)).trans and_assoc)
  · exact (decode_eq_ok_iff_of_prod (i := .writePart len pay) rfl rfl rfl c src).trans
      ((and_congr_left' (commandWord_eq_iff len _ _ c)).trans and_assoc)
  · exact (decode_eq_ok_iff_of_ne_prod (i := .readAll len) nofun rfl c src).trans (commandWord_eq_iff len _ _ c)
  · exact (decode_eq_ok_iff_of_ne_prod (i := .readPart len) nofun rfl c src).trans (commandWord_eq_iff len _ _ c)
  · refine (decode_eq_ok_iff_of_ne_prod (i := .rdreg reg) nofun rfl c src).trans ?_
    rw [encodeWord, commandWord_rdreg, append_eq_iff_regMask]

/-- Settles O5, by evaluation of the decoder on the nine words. -/
theorem writtenWordsDecode : Obligations.WrittenWordsDecode := by
  unfold Obligations.WrittenWordsDecode
  decide

end Sys2Proof

/-! PROOFS. The invariant at the start of a run and along it. -/

namespace Sys2Proof.Machine

/-- Settles O18: the cases of a step, each of which keeps the invariant. -/
theorem stepKeepsInv : Obligations.StepKeepsInv := fun _ _ h hs => h.of_step hs

/-- Settles O19: the reset state is the start of the run without programs. -/
theorem startMeetsInv : Obligations.StartMeetsInv := ⟨inv_boot 31 [] [] [] [], inv_boot⟩

end Sys2Proof.Machine

/-! PROOFS. Every step against an ideal queue (20_memory R45, R46), and the responses as its history. -/

namespace Sys2Proof.Machine

/-! ### The buffered bytes under an update -/

theorem State.queue_eq_nil {s : State} (h : s.writeSeq = s.readSeq) : s.queue = [] := by
  rw [State.queue, State.level, h, BitVec.sub_self]
  rfl

/-- Without a buffer nothing is buffered (10_state R16, R31). -/
theorem Inv.queue_of_unconfigured {s : State} (h : Inv s) (hs : s.state = .unconfigured) : s.queue = [] := by
  obtain ⟨hRead, hWrite, -, -⟩ := h.noBuffer (h.unconfigured hs)
  exact State.queue_eq_nil (hWrite.trans hRead.symm)

@[simp] theorem State.queue_answer (s : State) (p : Port) (rsp : Rsp) (v : U32) (d : List Byte) :
    (s.answer p rsp v d).queue = s.queue :=
  State.queue_congr (by simp) (by simp) (by simp) (by simp)

/-- WRITE's COPY leaves the buffered bytes: it stores where none of them is. -/
theorem Inv.queue_copied {s : State} (h : Inv s) (hp : s.prod.phase ≠ .idle) (r : ProdRegs) :
    State.queue { s with storage := s.copied, prod := r } = s.queue :=
  State.window_congr fun _ hi => h.byteAt_copied hp hi r

/-- The buffered bytes once `write_seq` has moved on by `n`: the next `n` bytes of storage are appended. -/
theorem State.queue_of_write {s t : State} {n : U32} (hStore : t.storage = s.storage) (hCap : t.capacity = s.capacity)
    (hRead : t.readSeq = s.readSeq) (hWrite : t.writeSeq = s.writeSeq + n)
    (hRoom : s.level.toNat + n.toNat < 2 ^ 32) : t.queue = s.queue ++ s.window s.writeSeq n.toNat := by
  have hLevel : t.level.toNat = s.level.toNat + n.toNat := by
    rw [State.level, hWrite, hRead]
    exact State.level_write hRoom
  calc t.queue = t.window s.readSeq (s.level.toNat + n.toNat) := by rw [State.queue, hLevel, hRead]
    _ = s.window s.readSeq (s.level.toNat + n.toNat) :=
        State.window_congr fun _ _ => State.byteAt_congr hStore hCap _
    _ = s.queue ++ s.window s.writeSeq n.toNat := by rw [State.window_add, ← s.writeSeq_eq, State.queue]

/-- The buffered bytes once `read_seq` has moved on by `n`: the first `n` are gone. -/
theorem State.queue_of_read {s t : State} {n : U32} (hStore : t.storage = s.storage) (hCap : t.capacity = s.capacity)
    (hRead : t.readSeq = s.readSeq + n) (hWrite : t.writeSeq = s.writeSeq) (hn : n ≤ s.level) :
    t.queue = s.queue.drop n.toNat := by
  have hLevel : t.level.toNat = s.level.toNat - n.toNat := by
    rw [State.level, hWrite, hRead]
    exact State.level_read hn
  calc t.queue = t.window (s.readSeq + n) (s.level.toNat - n.toNat) := by rw [State.queue, hLevel, hRead]
    _ = s.window (s.readSeq + n) (s.level.toNat - n.toNat) :=
        State.window_congr fun _ _ => State.byteAt_congr hStore hCap _
    _ = s.queue.drop n.toNat := by
        rw [State.queue, State.window_drop s _ (BitVec.le_def.mp hn), BitVec.ofNat_toNat, BitVec.setWidth_eq]

/-- The first `n` buffered bytes are those from `read_seq` on. -/
theorem State.queue_take {s : State} {n : U32} (hn : n ≤ s.level) :
    s.queue.take n.toNat = s.window s.readSeq n.toNat :=
  State.window_take s _ (BitVec.le_def.mp hn)

/-! ### What a step does to the queue and to its history -/

/-- What a step does to the buffered bytes, with what the responses then show: nothing, or it appends a payload, or
it takes what it returns, or it destroys the buffer. -/
inductive QueueMove (s t : State) : Prop
  | unchanged (hQueue : t.queue = s.queue) (hWritten : bytesWritten t.prodIo = bytesWritten s.prodIo)
      (hRead : bytesRead t.consIo = bytesRead s.consIo)
  | appended (hPub : s.prod.phase = .pub) (hIdle : t.prod.phase = .idle)
      (hQueue : t.queue = s.queue ++ s.prod.payload.take s.prod.n.toNat)
      (hWritten : bytesWritten t.prodIo = bytesWritten s.prodIo ++ s.prod.payload.take s.prod.n.toNat)
      (hCons : t.consIo = s.consIo)
  | taken (hPub : s.cons.phase = .pub) (hIdle : t.cons.phase = .idle) (hQueue : s.queue = s.cons.data ++ t.queue)
      (hProd : t.prodIo = s.prodIo)
      (hCons : t.consIo.responses = s.consIo.responses ++ [⟨s.cons.n ++ 0#30 ++ 0#2, s.cons.data⟩])
  | destroyed (hActive : s.state = .active) (hReleased : t.state = .unconfigured) (hQueue : t.queue = [])

/-- An answer that moves no byte adds nothing to what PROD has appended. -/
theorem bytesWritten_answered_of_none {x : PortIo} {r : Request} (hr : x.program[x.cp]? = some r)
    (hl : x.responses.length = x.cp) {a : Response} (ha : Response.isOk a = false ∨ Response.value a = 0#32) :
    bytesWritten (x.answered a) = bytesWritten x := by
  rw [bytesWritten_answered hr hl]
  rcases ha with ha | ha <;> simp [ha]

/-- A step that answers the command offered at a port, and neither appends nor returns a byte. -/
theorem QueueMove.of_answer {s t : State} {p : Port} {r : Request} (hPort : PortInv s p) (ho : s.offered p = some r)
    (hQueue : t.queue = s.queue) (a : Response) (hSelf : t.io p = (s.io p).answered a)
    (hOther : ∀ q, q ≠ p → t.io q = s.io q) (hOk : p = .prod → Response.isOk a = false ∨ Response.value a = 0#32)
    (hData : p = .cons → a.data = []) : QueueMove s t := by
  refine .unchanged hQueue ?_ ?_
  · by_cases hp : p = .prod
    · subst hp
      have hio : t.prodIo = s.prodIo.answered a := hSelf
      rw [hio]
      exact bytesWritten_answered_of_none ho hPort.answered (hOk rfl)
    · exact congrArg bytesWritten (hOther .prod (Ne.symm hp))
  · by_cases hp : p = .cons
    · subst hp
      have hio : t.consIo = s.consIo.answered a := hSelf
      rw [hio, bytesRead_answered, hData rfl, List.append_nil]
    · exact congrArg bytesRead (hOther .cons (Ne.symm hp))

/-- A step that leaves the buffered bytes and every port's record. -/
theorem QueueMove.of_same {s t : State} (hQueue : t.queue = s.queue) (hProd : t.prodIo = s.prodIo)
    (hCons : t.consIo = s.consIo) : QueueMove s t :=
  .unchanged hQueue (by rw [hProd]) (by rw [hCons])

/-- The payload of the WRITE in flight is the one offered with it (30_encoding R62). -/
theorem WriteFlight.offered_payload {s : State} (h : WriteFlight s) :
    ∃ r, s.offered .prod = some r ∧ r.payload = s.prod.payload := by
  obtain ⟨r, ho, hd⟩ := h.command
  refine ⟨r, ho, ?_⟩
  rw [← payload_of_decode hd (port_of_decode hd), ProdRegs.command]
  split <;> rfl

/-- SNAP of a WRITE is an answer or leaves the ports alone. -/
theorem QueueMove.of_writeSnap {s : State} (h : Inv s) {r : Request} (ap : Bool) (len : U32) (src : List Byte)
    (ho : s.offered .prod = some r) : QueueMove s (writeSnap ap len src s) := by
  rw [writeSnap_eq]
  split
  · exact .of_answer (h.ports .prod) ho (s.queue_answer _ _ _ _) _ (s.answer_io_self _ _ _ _)
      (fun q hq => s.answer_io_of_ne hq _ _ _) (fun _ => .inr (by simp)) nofun
  · exact .of_same rfl rfl rfl

/-- SNAP of a READ is an answer or leaves the ports alone. -/
theorem QueueMove.of_readSnap {s : State} (h : Inv s) {r : Request} (ap : Bool) (len : U32)
    (ho : s.offered .cons = some r) : QueueMove s (readSnap ap len s) := by
  rw [readSnap_eq]
  split
  · exact .of_answer (h.ports .cons) ho (s.queue_answer _ _ _ _) _ (s.answer_io_self _ _ _ _)
      (fun q hq => s.answer_io_of_ne hq _ _ _) nofun (fun _ => rfl)
  · exact .of_same rfl rfl rfl

/-- WRITE's PUB appends the payload that COPY stored from `write_seq` on. -/
theorem QueueMove.of_writePub {s t : State} (h : Inv s) (hp : s.prod.phase = .pub) (ht : writePub s = .next t) :
    QueueMove s t := by
  have hBusy : s.prod.phase ≠ .idle := by simp [hp]
  have hFlight := h.write hBusy
  have hRoom := hFlight.room
  have hCap := h.capacity_le
  obtain ⟨r, ho, hPayload⟩ := hFlight.offered_payload
  obtain ⟨-, rfl⟩ := writePub_next ht
  refine .appended hp rfl ?_ ?_ rfl
  · rw [State.queue_answer, ← hFlight.copied hp]
    exact State.queue_of_write rfl rfl rfl (by rw [hFlight.base]) (by omega)
  · have hAnswered := bytesWritten_answered ho (h.ports .prod).answered ⟨responseWord .ok s.prod.n, []⟩
    rw [Response.isOk_responseWord, Response.value_responseWord, hPayload] at hAnswered
    exact hAnswered

/-- READ's PUB takes the data that COPY loaded from `read_seq` on. -/
theorem QueueMove.of_readPub {s t : State} (h : Inv s) (hc : s.cons.phase = .pub) (ht : readPub s = .next t) :
    QueueMove s t := by
  have hFlight := h.read (by simp [hc])
  obtain ⟨-, rfl⟩ := readPub_next ht
  refine .taken hc rfl ?_ rfl rfl
  have hRest := State.queue_of_read (s := s)
    (t := { s with readSeq := s.cons.base + s.cons.n, cons := { s.cons with phase := .idle } })
    rfl rfl (by rw [hFlight.base]) rfl hFlight.n_le_level
  rw [State.queue_answer, hRest, hFlight.copied hc, ← State.queue_take hFlight.n_le_level, List.take_append_drop]

/-- What one agent's step does to the queue. -/
theorem Inv.queueMove {s t : State} {p : Port} (h : Inv s) (hm : Moves s p t) : QueueMove s t := by
  cases hm with
  | refused _ r _ _ ho _ =>
    exact .of_answer (h.ports p) ho (s.queue_answer _ _ _ _) _ (s.refuse_io_self p)
      (fun q hq => s.refuse_io_of_ne hq) (fun _ => .inl (by simp)) (fun _ => rfl)
  | raised _ r cause c _ _ ho _ =>
    exact .of_answer (h.ports p) ho (State.queue_answer _ _ _ _ _) _ (s.raise_io_self cause p c)
      (fun q hq => s.raise_io_of_ne hq cause c) (fun _ => .inl (by simp)) (fun _ => rfl)
  | created r size _ _ hs _ _ _ =>
    refine .of_same ?_ rfl rfl
    rw [State.queue_answer, h.queue_of_unconfigured hs]
    exact State.queue_eq_nil rfl
  | destroyed r _ _ hs _ _ => exact .destroyed hs rfl (State.queue_eq_nil rfl)
  | registerRead r reg _ _ => exact .of_same (s.queue_answer _ _ _ _) rfl rfl
  | wrote r ap len src ho _ _ _ => exact .of_writeSnap h ap len src ho
  | writeCopied _ _ hp ht =>
    obtain ⟨-, rfl⟩ := writeCopy_next ht
    exact .of_same (h.queue_copied (by simp [hp]) _) rfl rfl
  | writePublished _ _ hp ht => exact .of_writePub h hp ht
  | didRead r ap len ho _ _ _ => exact .of_readSnap h ap len ho
  | readCopied _ _ _ ht =>
    obtain ⟨-, data, rfl⟩ := readCopy_next ht
    exact .of_same rfl rfl rfl
  | readPublished _ _ hc ht => exact .of_readPub h hc ht

/-- What a step does to the queue: the choice of an agent touches nothing that the queue depends on. -/
theorem Inv.queueMove_of_step {s t : State} (h : Inv s) (hs : step s = .next t) : QueueMove s t := by
  obtain ⟨p, rest, -, -, hm⟩ := moves_of_step hs
  cases (h.consume rest).queueMove hm with
  | unchanged hQueue hWritten hRead => exact .unchanged hQueue hWritten hRead
  | appended hPub hIdle hQueue hWritten hCons => exact .appended hPub hIdle hQueue hWritten hCons
  | taken hPub hIdle hQueue hProd hCons => exact .taken hPub hIdle hQueue hProd hCons
  | destroyed hActive hReleased hQueue => exact .destroyed hActive hReleased hQueue

/-- Settles O52: the four moves of the queue. -/
theorem stepsActOnAnIdealQueue : Obligations.StepsActOnAnIdealQueue := by
  intro s t h hs
  cases h.queueMove_of_step hs with
  | unchanged hQueue _ _ => exact .inl hQueue
  | appended hPub hIdle hQueue _ _ => exact .inr (.inl ⟨hPub, hIdle, hQueue⟩)
  | taken hPub hIdle hQueue _ hCons => exact .inr (.inr (.inl ⟨hPub, hIdle, hQueue, hCons⟩))
  | destroyed hActive hReleased hQueue => exact .inr (.inr (.inr ⟨hActive, hReleased, hQueue⟩))

/-- Settles O53: what a move appends to the queue it adds to what was written, and what it takes from the front it adds
to what was read. -/
theorem firstInFirstOut : Obligations.FirstInFirstOut := by
  intro s t h hs hKept hHistory
  cases h.queueMove_of_step hs with
  | unchanged hQueue hWritten hRead => rw [hWritten, hRead, hQueue, hHistory]
  | appended _ _ hQueue hWritten hCons => rw [hWritten, hCons, hQueue, hHistory, List.append_assoc]
  | taken _ _ hQueue hProd hCons =>
    have hRead : bytesRead t.consIo = bytesRead s.consIo ++ s.cons.data := by simp [bytesRead, hCons]
    rw [hProd, hRead, hHistory, hQueue, List.append_assoc]
  | destroyed hActive hReleased _ => exact absurd ⟨hActive, hReleased⟩ hKept

end Sys2Proof.Machine

/-! PROOFS. Which agent steps and what its step runs (00_scope R10, 60_exceptions R64, R85; log 2, 3). -/

namespace Sys2Proof.Machine

/-- A WRITE in flight goes on with its COPY or PUB (10_state R21). -/
theorem transferStep_prod {s : State} (ap : Bool) (len : U32) (src : List Byte) (c : U64) (hb : s.busy .prod = true) :
    transferStep .prod s = writeStep ap len src c s := by
  cases hp : s.prod.phase with
  | idle => exact absurd hb (Bool.eq_false_iff.mp (State.not_busy_prod.mpr hp))
  | copy =>
    rw [writeStep_of_copy ap len src c hp]
    simp only [transferStep, hp]
  | pub =>
    rw [writeStep_of_pub ap len src c hp]
    simp only [transferStep, hp]

/-- A READ in flight goes on with its COPY or PUB (10_state R22). -/
theorem transferStep_cons {s : State} (ap : Bool) (len : U32) (c : U64) (hb : s.busy .cons = true) :
    transferStep .cons s = readStep ap len c s := by
  cases hc : s.cons.phase with
  | idle => exact absurd hb (Bool.eq_false_iff.mp (State.not_busy_cons.mpr hc))
  | copy =>
    rw [readStep_of_copy ap len c hc]
    simp only [transferStep, hc]
  | pub =>
    rw [readStep_of_pub ap len c hc]
    simp only [transferStep, hc]

/-- A transfer in flight goes on with the step that its command means (log 8). -/
theorem transferStep_eq_exec {s : State} {i : Instr} (hb : s.busy i.port = true) :
    transferStep i.port s = exec i s := by
  cases i with
  | create size => cases hb
  | destroy => cases hb
  | writeAll len src => exact transferStep_prod _ _ _ _ hb
  | writePart len src => exact transferStep_prod _ _ _ _ hb
  | readAll len => exact transferStep_cons _ _ _ hb
  | readPart len => exact transferStep_cons _ _ _ hb
  | rdreg reg => cases hb

/-- An agent's step is the meaning of the command at its port, in flight or not. -/
theorem agentStep_of_decode {s : State} {p : Port} {r : Request} {i : Instr} (ho : s.offered p = some r)
    (hd : decode p r = .ok i) : agentStep p s = exec i s := by
  by_cases hb : s.busy p = true
  · obtain rfl := port_of_decode hd
    rw [agentStep_of_busy hb, transferStep_eq_exec hb]
  · rw [agentStep_of_idle (Bool.eq_false_iff.mpr hb) ho]
    simp only [accept, hd]

/-- Settles O11: the agent picked takes its step on the state with the choice taken. -/
theorem stepRunsDecodedCommand : Obligations.StepRunsDecodedCommand := by
  intro s p rest r i hPick ho hd
  rw [step_of_pick hPick]
  exact agentStep_of_decode (by rwa [State.consume_offered]) hd

/-- Settles O12: the acceptance of a word that does not decode, by STATE. -/
theorem undecodedWordFaultsOrIsRefused : Obligations.UndecodedWordFaultsOrIsRefused := by
  intro s p rest r cause hPick hb ho hd
  have hStep : step s = accept p r (s.consume rest) := by
    rw [step_of_pick hPick, agentStep_of_idle (by rwa [State.consume_busy]) (by rwa [State.consume_offered])]
  rw [hStep]
  simp only [accept, hd]
  exact ⟨fun hs => if_neg hs, fun hs => if_pos hs⟩

/-- Whether an agent has an enabled step does not depend on the schedule. -/
theorem State.enabled_withSched (s : State) (sched : List Port) (p : Port) :
    State.enabled { s with sched := sched } p = s.enabled p := by
  cases p <;> rfl

/-- Settles O13: an enabled agent at the head of the schedule is picked. -/
theorem everyEnabledAgentMayStep : Obligations.EveryEnabledAgentMayStep := by
  intro s p rest he
  exact step_of_pick (State.pick_of_sched rfl ((s.enabled_withSched _ p).trans he))

/-! ### Placing a table word (log 3) -/

/-- The request offered is the one at the pointer. -/
theorem PortIo.offer_program (x : PortIo) (r : Request) : (x.offer r).program[(x.offer r).cp]? = some r := by
  refine List.getElem?_set_self ?_
  simp only [List.length_append, List.length_replicate]
  omega

@[simp] theorem State.placeRequest_io_self (s : State) (p : Port) (r : Request) :
    (s.placeRequest p r).io p = (s.io p).offer r := by
  cases p <;> rfl

@[simp] theorem State.placeRequest_offered_self (s : State) (p : Port) (r : Request) :
    (s.placeRequest p r).offered p = some r := by
  rw [State.offered, State.placeRequest_io_self, PortIo.offer_program]

@[simp] theorem State.placeRequest_busy_self (s : State) (p : Port) (r : Request) :
    (s.placeRequest p r).busy p = false := by
  cases p <;> rfl

theorem State.placeRequest_sched (s : State) (p : Port) (r : Request) :
    (s.placeRequest p r).sched = p :: s.sched := by
  cases p <;> rfl

theorem State.placeRequest_ticks (s : State) (p : Port) (r : Request) : (s.placeRequest p r).ticks = s.ticks := by
  cases p <;> rfl

/-- The port with the placed request takes the next step. -/
theorem State.pick_placeRequest (s : State) (p : Port) (r : Request) :
    (s.placeRequest p r).pick = some (p, s.sched) := by
  refine State.pick_of_sched (s.placeRequest_sched p r) ?_
  have hlt := State.cp_lt_of_offered (s.placeRequest_offered_self p r)
  simpa [State.enabled] using hlt

/-- The command read from a table word is decoded at the port the word is placed at. -/
theorem decode_of_decodeTableWord {nbits w : Nat} {i : Instr} (h : decodeTableWord nbits w = some i) :
    decode (portOfWord (tableRequest nbits w).word) (tableRequest nbits w) = .ok i := by
  unfold decodeTableWord at h
  split at h
  · cases h
    assumption
  · cases h

/-- Settles O14: the placed request is offered at the port picked. -/
theorem placedWordRunsNext : Obligations.PlacedWordRunsNext := by
  intro s nbits w i h
  have hStep := stepRunsDecodedCommand _ _ _ _ i (s.pick_placeRequest _ _) (s.placeRequest_offered_self _ _)
    (decode_of_decodeTableWord h)
  rwa [State.placeRequest_ticks] at hStep

/-! ### Bounded completion (70_reset_and_hazards R109) -/

/-- COPY and PUB of a transfer in flight complete: the invariant keeps them inside storage. -/
theorem Inv.transferStep_completes {s : State} (h : Inv s) (hs : s.state ≠ .faulted) {p : Port}
    (hb : s.busy p = true) : ∃ t, transferStep p s = .next t := by
  cases p with
  | ctl => cases hb
  | prod =>
    have hBusy : s.prod.phase ≠ .idle := by simpa [State.busy] using hb
    have hFlight := h.write hBusy
    obtain ⟨k, -, hk⟩ := h.power (h.buffer_of_write hBusy)
    simp only [transferStep]
    split
    next hIdle => exact absurd hIdle hBusy
    next => exact ⟨_, writeCopy_eq hs hk hFlight.n_le_capacity hFlight.n_le_payload⟩
    next => exact ⟨_, writePub_eq hs⟩
  | cons =>
    have hBusy : s.cons.phase ≠ .idle := by simpa [State.busy] using hb
    obtain ⟨k, -, hk⟩ := h.power (h.buffer_of_read hBusy)
    simp only [transferStep]
    split
    next hIdle => exact absurd hIdle hBusy
    next => exact ⟨_, readCopy_eq hs hk (h.read_le_capacity hBusy)⟩
    next => exact ⟨_, readPub_eq hs⟩

/-- An enabled agent's step completes. -/
theorem Inv.agentStep_completes {s : State} (h : Inv s) {p : Port} (he : s.enabled p = true) :
    ∃ t, agentStep p s = .next t := by
  by_cases hb : s.busy p = true
  · have hs : s.state ≠ .faulted := by simpa [State.enabled, hb] using he
    rw [agentStep_of_busy hb]
    exact h.transferStep_completes hs hb
  · have hIdle := Bool.eq_false_iff.mpr hb
    obtain ⟨r, ho⟩ := State.offered_of_enabled_of_idle he hIdle
    rw [agentStep_of_idle hIdle ho]
    exact accept_completes_of_idle hIdle

/-- Settles O16: an idle port always answers and a transfer in flight always goes on; where some agent is enabled, an
enabled one is picked. -/
theorem enabledStepsComplete : Obligations.EnabledStepsComplete := by
  intro s h
  refine ⟨fun p he => h.agentStep_completes he, fun ⟨p, he⟩ => ?_⟩
  match hPick : s.pick with
  | none => exact absurd he (by simp [s.pick_eq_none.mp hPick p])
  | some (q, rest) =>
    rw [step_of_pick hPick]
    exact (h.consume rest).agentStep_completes (by simpa using State.enabled_of_pick hPick)

end Sys2Proof.Machine

/-! PROOFS. What a step of one agent may write (10_state R12 to R15, R19 to R22, 60_exceptions R95), and the work it
takes off the bound (70_reset_and_hazards R109). -/

namespace Sys2Proof.Machine

/-! ### An agent's own state -/

/-- `t` differs from `s` in nothing that belongs to a port other than `p`, in no program and not in MAX_CAPACITY. -/
structure OnlyOwn (s : State) (p : Port) (t : State) : Prop where
  io : ∀ q, q ≠ p → t.io q = s.io q
  prod : p ≠ .prod → t.prod = s.prod
  cons : p ≠ .cons → t.cons = s.cons
  program : ∀ q, (t.io q).program = (s.io q).program
  maxLog2 : t.maxLog2 = s.maxLog2

/-- A change of the shared registers and of storage. -/
theorem OnlyOwn.of_shared {s t : State} (p : Port) (hIo : ∀ q, t.io q = s.io q) (hProd : t.prod = s.prod)
    (hCons : t.cons = s.cons) (hMax : t.maxLog2 = s.maxLog2) : OnlyOwn s p t :=
  ⟨fun q _ => hIo q, fun _ => hProd, fun _ => hCons, fun q => by rw [hIo q], hMax⟩

/-- A change of PROD's registers besides. -/
theorem OnlyOwn.of_prod {s t : State} (hIo : ∀ q, t.io q = s.io q) (hCons : t.cons = s.cons)
    (hMax : t.maxLog2 = s.maxLog2) : OnlyOwn s .prod t :=
  ⟨fun q _ => hIo q, fun h => absurd rfl h, fun _ => hCons, fun q => by rw [hIo q], hMax⟩

/-- A change of CONS's registers besides. -/
theorem OnlyOwn.of_cons {s t : State} (hIo : ∀ q, t.io q = s.io q) (hProd : t.prod = s.prod)
    (hMax : t.maxLog2 = s.maxLog2) : OnlyOwn s .cons t :=
  ⟨fun q _ => hIo q, fun _ => hProd, fun h => absurd rfl h, fun q => by rw [hIo q], hMax⟩

/-- The port answers besides. -/
theorem OnlyOwn.answer {s u : State} {p : Port} (h : OnlyOwn s p u) (rsp : Rsp) (v : U32) (d : List Byte) :
    OnlyOwn s p (u.answer p rsp v d) where
  io q hq := (u.answer_io_of_ne hq rsp v d).trans (h.io q hq)
  prod hp := (u.answer_prod p rsp v d).trans (h.prod hp)
  cons hp := (u.answer_cons p rsp v d).trans (h.cons hp)
  program q := (u.answer_program p q rsp v d).trans (h.program q)
  maxLog2 := (u.answer_maxLog2 p rsp v d).trans h.maxLog2

theorem OnlyOwn.refl (s : State) (p : Port) : OnlyOwn s p s := .of_shared p (fun _ => rfl) rfl rfl rfl

/-- Everything an agent can do leaves what belongs to the others. -/
theorem Moves.onlyOwn {s t : State} {p : Port} (hm : Moves s p t) : OnlyOwn s p t := by
  cases hm with
  | refused _ r _ _ _ _ => exact (OnlyOwn.refl s p).answer _ _ _
  | raised _ r cause c _ _ _ _ =>
    refine OnlyOwn.answer ?_ _ _ _
    exact .of_shared p (fun q => by cases q <;> rfl) rfl rfl rfl
  | created r size _ _ _ _ _ _ => exact (OnlyOwn.of_shared _ (s.configure_io _) rfl rfl rfl).answer _ _ _
  | destroyed r _ _ _ _ _ => exact (OnlyOwn.of_shared _ s.release_io rfl rfl rfl).answer _ _ _
  | registerRead r reg _ _ => exact (OnlyOwn.refl s _).answer _ _ _
  | wrote r ap len src _ _ _ _ =>
    rw [writeSnap_eq]
    split
    · exact (OnlyOwn.refl s _).answer _ _ _
    · exact .of_prod (fun q => by cases q <;> rfl) rfl rfl
  | writeCopied _ _ _ ht =>
    obtain ⟨-, rfl⟩ := writeCopy_next ht
    exact .of_prod (fun q => by cases q <;> rfl) rfl rfl
  | writePublished _ _ _ ht =>
    obtain ⟨-, rfl⟩ := writePub_next ht
    refine OnlyOwn.answer ?_ _ _ _
    exact .of_prod (fun q => by cases q <;> rfl) rfl rfl
  | didRead r ap len _ _ _ _ =>
    rw [readSnap_eq]
    split
    · exact (OnlyOwn.refl s _).answer _ _ _
    · exact .of_cons (fun q => by cases q <;> rfl) rfl rfl
  | readCopied _ _ _ ht =>
    obtain ⟨-, data, rfl⟩ := readCopy_next ht
    exact .of_cons (fun q => by cases q <;> rfl) rfl rfl
  | readPublished _ _ _ ht =>
    obtain ⟨-, rfl⟩ := readPub_next ht
    refine OnlyOwn.answer ?_ _ _ _
    exact .of_cons (fun q => by cases q <;> rfl) rfl rfl

/-- Settles O48, by the cases of an agent's step. -/
theorem agentsTouchOnlyTheirOwn : Obligations.AgentsTouchOnlyTheirOwn := by
  intro s t p h
  obtain ⟨hIo, hProd, hCons, hProgram, hMax⟩ := (moves_of_agentStep h).onlyOwn
  exact ⟨hIo, hProd, hCons, hProgram, hMax⟩

/-! ### The work left (70_reset_and_hazards R109) -/

/-- The phase of a port; CTL's commands take one step (10_state R20). -/
def State.phaseAt (s : State) : Port → Phase
  | .ctl => .idle
  | .prod => s.prod.phase
  | .cons => s.cons.phase

/-- The steps a port has left at most. -/
def State.workAt (s : State) (p : Port) : Nat := 3 * (s.io p).left - (s.phaseAt p).done

theorem State.work_eq (s : State) : s.work = s.workAt .ctl + s.workAt .prod + s.workAt .cons := rfl

/-- A step of one agent leaves the work of the others. -/
theorem OnlyOwn.workAt_eq {s t : State} {p q : Port} (h : OnlyOwn s p t) (hq : q ≠ p) : t.workAt q = s.workAt q := by
  have hPhase : t.phaseAt q = s.phaseAt q := by
    cases q with
    | ctl => rfl
    | prod => exact congrArg ProdRegs.phase (h.prod hq.symm)
    | cons => exact congrArg ConsRegs.phase (h.cons hq.symm)
  rw [State.workAt, State.workAt, h.io q hq, hPhase]

/-- So the bound falls with the work of the agent that steps. -/
theorem OnlyOwn.work_lt {s t : State} {p : Port} (h : OnlyOwn s p t) (hlt : t.workAt p < s.workAt p) :
    t.work < s.work := by
  rw [State.work_eq, State.work_eq]
  cases p with
  | ctl =>
    have hProd := h.workAt_eq (q := .prod) nofun
    have hCons := h.workAt_eq (q := .cons) nofun
    omega
  | prod =>
    have hCtl := h.workAt_eq (q := .ctl) nofun
    have hCons := h.workAt_eq (q := .cons) nofun
    omega
  | cons =>
    have hCtl := h.workAt_eq (q := .ctl) nofun
    have hProd := h.workAt_eq (q := .prod) nofun
    omega

theorem Phase.done_le (x : Phase) : x.done ≤ 2 := by cases x <;> decide

/-- An answer takes a command off the port's program. -/
theorem State.workAt_lt_of_answer {s t : State} {p : Port} {a : Response} (hio : t.io p = (s.io p).answered a)
    (hlt : (s.io p).cp < (s.io p).program.length) : t.workAt p < s.workAt p := by
  have hDone := (s.phaseAt p).done_le
  simp only [State.workAt, hio, PortIo.left, PortIo.answered_cp, PortIo.answered_program]
  omega

/-- A step that goes one phase on without an answer. -/
theorem State.workAt_lt_of_phase {s t : State} {p : Port} (hio : t.io p = s.io p)
    (hPhase : (t.phaseAt p).done = (s.phaseAt p).done + 1) (hlt : (s.io p).cp < (s.io p).program.length) :
    t.workAt p < s.workAt p := by
  have hDone := (t.phaseAt p).done_le
  simp only [State.workAt, hio, PortIo.left, hPhase] at hDone ⊢
  omega

/-- Everything an agent can do takes a step off its own work. -/
theorem Moves.workAt_lt {s t : State} {p : Port} (h : Inv s) (hm : Moves s p t) : t.workAt p < s.workAt p := by
  cases hm with
  | refused _ r _ _ ho _ => exact State.workAt_lt_of_answer (s.refuse_io_self p) (State.cp_lt_of_offered ho)
  | raised _ r cause c _ _ ho _ =>
    exact State.workAt_lt_of_answer (s.raise_io_self cause p c) (State.cp_lt_of_offered ho)
  | created r size ho _ _ _ _ _ => exact State.workAt_lt_of_answer rfl (State.cp_lt_of_offered ho)
  | destroyed r ho _ _ _ _ => exact State.workAt_lt_of_answer rfl (State.cp_lt_of_offered ho)
  | registerRead r reg ho _ => exact State.workAt_lt_of_answer rfl (State.cp_lt_of_offered ho)
  | wrote r ap len src ho _ _ hp =>
    have hlt := State.cp_lt_of_offered ho
    rw [writeSnap_eq]
    split
    · exact State.workAt_lt_of_answer rfl hlt
    · exact State.workAt_lt_of_phase rfl (by simp [State.phaseAt, hp, Phase.done]) hlt
  | writeCopied _ _ hp ht =>
    obtain ⟨-, rfl⟩ := writeCopy_next ht
    exact State.workAt_lt_of_phase rfl (by simp [State.phaseAt, hp, Phase.done])
      ((h.ports .prod).pending (by simp [State.busy, hp]))
  | writePublished _ _ hp ht =>
    obtain ⟨-, rfl⟩ := writePub_next ht
    exact State.workAt_lt_of_answer rfl ((h.ports .prod).pending (by simp [State.busy, hp]))
  | didRead r ap len ho _ _ hc =>
    have hlt := State.cp_lt_of_offered ho
    rw [readSnap_eq]
    split
    · exact State.workAt_lt_of_answer rfl hlt
    · exact State.workAt_lt_of_phase rfl (by simp [State.phaseAt, hc, Phase.done]) hlt
  | readCopied _ _ hc ht =>
    obtain ⟨-, data, rfl⟩ := readCopy_next ht
    exact State.workAt_lt_of_phase rfl (by simp [State.phaseAt, hc, Phase.done])
      ((h.ports .cons).pending (by simp [State.busy, hc]))
  | readPublished _ _ hc ht =>
    obtain ⟨-, rfl⟩ := readPub_next ht
    exact State.workAt_lt_of_answer rfl ((h.ports .cons).pending (by simp [State.busy, hc]))

/-- Settles O17: the step takes work off its own agent and leaves that of the others. -/
theorem everyStepConsumesWork : Obligations.EveryStepConsumesWork := by
  intro s t h hs
  obtain ⟨p, rest, -, -, hm⟩ := moves_of_step hs
  exact hm.onlyOwn.work_lt (hm.workAt_lt (h.consume rest))

end Sys2Proof.Machine

/-! PROOFS. Who moves STATE (10_state R12) and who writes the counters and the capacity (10_state R13 to R15). -/

namespace Sys2Proof.Machine

/-! ### STATE (R12) -/

/-- How STATE may move. -/
inductive LifeMove (s t : State) : Prop
  | kept (h : t.state = s.state)
  | faulted (hs : s.state ≠ .faulted) (ht : t.state = .faulted) (hCause : t.faultCause ≠ .none)
  | created (r : Request) (size : U32) (hs : s.state = .unconfigured) (ht : t.state = .active)
      (ho : s.offered .ctl = some r) (hd : decode .ctl r = .ok (.create size))
  | destroyed (r : Request) (hs : s.state = .active) (ht : t.state = .unconfigured) (ho : s.offered .ctl = some r)
      (hd : decode .ctl r = .ok .destroy)

/-- Only CREATE, DESTROY and the fault entry move STATE. -/
theorem Moves.lifeMove {s t : State} {p : Port} (hm : Moves s p t) : LifeMove s t := by
  by_cases hFaults : s.state ≠ .faulted ∧ t.state = .faulted
  · obtain ⟨hs, ht⟩ := hFaults
    obtain ⟨-, r, cause, -, hCause, rfl⟩ := hm.raised_of_enters_faulted hs ht
    exact .faulted hs ht (by simpa using hCause)
  cases hm with
  | refused _ r _ _ _ _ => exact .kept (s.refuse_state p)
  | raised _ r cause c hs _ _ _ => exact absurd ⟨hs, s.raise_state cause p c⟩ hFaults
  | created r size ho hd hs _ _ _ => exact .created r size hs rfl ho hd
  | destroyed r ho hd hs _ _ => exact .destroyed r hs rfl ho hd
  | registerRead r reg _ _ => exact .kept (s.answer_state _ _ _ _)
  | wrote r ap len src _ _ _ _ => exact .kept (writeSnap_state ap len src s)
  | writeCopied _ _ _ ht =>
    obtain ⟨-, rfl⟩ := writeCopy_next ht
    exact .kept rfl
  | writePublished _ _ _ ht =>
    obtain ⟨-, rfl⟩ := writePub_next ht
    exact .kept rfl
  | didRead r ap len _ _ _ _ => exact .kept (readSnap_state ap len s)
  | readCopied _ _ _ ht =>
    obtain ⟨-, data, rfl⟩ := readCopy_next ht
    exact .kept rfl
  | readPublished _ _ _ ht =>
    obtain ⟨-, rfl⟩ := readPub_next ht
    exact .kept rfl

/-- Settles O46, by the moves of STATE, the kept fault, the codes and the reset state. -/
theorem stateMovesOnlyByLifecycleAndFaults : Obligations.StateMovesOnlyByLifecycleAndFaults := by
  refine ⟨fun s t h => ?_, fun s t hs h => (firstFaultIsKept s t hs h).1, fun s => ?_, fun k => rfl⟩
  · obtain ⟨p, rest, -, -, hm⟩ := moves_of_step h
    cases hm.lifeMove with
    | kept hKept => exact .inl hKept
    | faulted hs ht hCause => exact .inr (.inl ⟨hs, ht, hCause⟩)
    | created r size hs ht ho hd => exact .inr (.inr (.inl ⟨hs, ht, r, size, by rwa [← s.consume_offered rest], hd⟩))
    | destroyed r hs ht ho hd => exact .inr (.inr (.inr ⟨hs, ht, r, by rwa [← s.consume_offered rest], hd⟩))
  · have hLe := s.state.code_le
    intro hCode
    simp [hCode] at hLe

/-! ### The counters and the capacity (R13 to R15) -/

/-- How the counters and the capacity may move. -/
inductive CounterMove (s t : State) : Prop
  | kept (hRead : t.readSeq = s.readSeq) (hWrite : t.writeSeq = s.writeSeq) (hCap : t.capacity = s.capacity)
  | consumed (hPub : s.cons.phase = .pub) (hIdle : t.cons.phase = .idle) (hRead : t.readSeq = s.cons.base + s.cons.n)
      (hWrite : t.writeSeq = s.writeSeq) (hCap : t.capacity = s.capacity)
  | published (hPub : s.prod.phase = .pub) (hIdle : t.prod.phase = .idle) (hRead : t.readSeq = s.readSeq)
      (hWrite : t.writeSeq = s.prod.base + s.prod.n) (hCap : t.capacity = s.capacity)
  | lifecycle (h : (s.state = .unconfigured ∧ t.state = .active) ∨ (s.state = .active ∧ t.state = .unconfigured))
      (hRead : t.readSeq = 0#32) (hWrite : t.writeSeq = 0#32)

/-- Only the two PUBs and CREATE and DESTROY write a counter or the capacity. -/
theorem Moves.counterMove {s t : State} {p : Port} (hm : Moves s p t) : CounterMove s t := by
  cases hm with
  | refused _ r _ _ _ _ => exact .kept (s.refuse_readSeq p) (s.refuse_writeSeq p) (s.refuse_capacity p)
  | raised _ r cause c _ _ _ _ =>
    exact .kept (s.raise_readSeq cause p c) (s.raise_writeSeq cause p c) (s.raise_capacity cause p c)
  | created r size _ _ hs _ _ _ => exact .lifecycle (.inl ⟨hs, rfl⟩) rfl rfl
  | destroyed r _ _ hs _ _ => exact .lifecycle (.inr ⟨hs, rfl⟩) rfl rfl
  | registerRead r reg _ _ => exact .kept rfl rfl rfl
  | wrote r ap len src _ _ _ _ =>
    rw [writeSnap_eq]
    split <;> exact .kept rfl rfl rfl
  | writeCopied _ _ _ ht =>
    obtain ⟨-, rfl⟩ := writeCopy_next ht
    exact .kept rfl rfl rfl
  | writePublished _ _ hp ht =>
    obtain ⟨-, rfl⟩ := writePub_next ht
    exact .published hp rfl rfl rfl rfl
  | didRead r ap len _ _ _ _ =>
    rw [readSnap_eq]
    split <;> exact .kept rfl rfl rfl
  | readCopied _ _ _ ht =>
    obtain ⟨-, data, rfl⟩ := readCopy_next ht
    exact .kept rfl rfl rfl
  | readPublished _ _ hc ht =>
    obtain ⟨-, rfl⟩ := readPub_next ht
    exact .consumed hc rfl rfl rfl rfl

/-- Settles O47, by the moves of the counters. -/
theorem eachCounterHasOneWriter : Obligations.EachCounterHasOneWriter := by
  intro s t h lifecycle
  obtain ⟨p, rest, -, -, hm⟩ := moves_of_step h
  cases hm.counterMove with
  | kept hRead hWrite hCap => exact ⟨.inl hRead, .inl hWrite, .inl hCap⟩
  | consumed hPub hIdle hRead hWrite hCap => exact ⟨.inr (.inl ⟨hPub, hIdle, hRead⟩), .inl hWrite, .inl hCap⟩
  | published hPub hIdle hRead hWrite hCap => exact ⟨.inl hRead, .inr (.inl ⟨hPub, hIdle, hWrite⟩), .inl hCap⟩
  | lifecycle hLife hRead hWrite =>
    exact ⟨.inr (.inr ⟨hLife, hRead⟩), .inr (.inr ⟨hLife, hWrite⟩), .inr hLife⟩

end Sys2Proof.Machine

/-! PROOFS. CREATE and DESTROY (40_lifecycle R69, R71), the transfers before CREATE (60_exceptions R85), and what each
command leaves unchanged. -/

namespace Sys2Proof.Machine

/-! ### CREATE (R69) -/

theorem exec_create (size : U32) (s : State) : exec (.create size) s = execCreate size s := rfl

theorem exec_destroy (s : State) : exec .destroy s = execDestroy s := rfl

theorem execCreate_of_active {s : State} (size : U32) (hs : s.state = .active) :
    execCreate size s = .next (s.raise .createActive .ctl (encodeWord (.create size))) := by
  simp [execCreate, hs]

/-- CREATE while UNCONFIGURED: BAD_SIZE, then ALLOC_FAIL, then the buffer. -/
theorem execCreate_of_unconfigured {s : State} (size : U32) (hs : s.state = .unconfigured) :
    execCreate size s =
      if size = 0#32 ∨ 0x80000000#32 < size then .next (s.raise .badSize .ctl (encodeWord (.create size)))
      else if s.maxCapacity < roundupPow2 size then .next (s.raise .allocFail .ctl (encodeWord (.create size)))
      else .next ((s.configure (roundupPow2 size)).answer .ctl .ok (roundupPow2 size) []) := by
  simp [execCreate, hs]

/-- CREATE's size check on the number. -/
theorem size_illegal_iff (size : U32) :
    (size = 0#32 ∨ 0x80000000#32 < size) ↔ (size.toNat = 0 ∨ 2 ^ 31 < size.toNat) := by
  rw [← BitVec.toNat_inj, BitVec.lt_def]
  rfl

/-- A size from 1 to 2^31 passes the check. -/
theorem size_legal {size : U32} (hPos : 1 ≤ size.toNat) (hMax : size.toNat ≤ 2 ^ 31) :
    ¬ (size = 0#32 ∨ 0x80000000#32 < size) := by
  rw [size_illegal_iff]
  omega

theorem State.physByte_congr {s t : State} (hStore : t.storage = s.storage) (hCap : t.capacity = s.capacity)
    (hDraws : t.draws = s.draws) (o : Nat) : t.physByte o = s.physByte o := by
  rw [State.physByte, State.physByte, hStore, hCap, hDraws]

theorem State.memRead_congr {s t : State} (hStore : t.storage = s.storage) (hCap : t.capacity = s.capacity)
    (o : Nat) : t.memRead o = s.memRead o := by
  rw [State.memRead_eq, State.memRead_eq, hStore, hCap]

/-- Settles O23: the checks pass; below the capacity the fill reads 0, and from it on the bytes are the draw's, before
as after. -/
theorem createConfiguresTheBuffer : Obligations.CreateConfiguresTheBuffer := by
  intro s size h hs hPos hMax hFits
  have hNone : s.capacity = 0#32 := h.unconfigured hs
  have hAlloc : ¬ s.maxCapacity < roundupPow2 size := by
    rw [BitVec.lt_def]
    exact Nat.not_lt.mpr hFits
  refine ⟨(s.configure (roundupPow2 size)).answer .ctl .ok (roundupPow2 size) [], ?_, rfl, rfl, rfl, rfl,
    fun o ho => ?_, fun o ho => ?_, rfl⟩
  · rw [exec_create, execCreate_of_unconfigured size hs, if_neg (size_legal hPos hMax), if_neg hAlloc]
  · rw [State.memRead_of_lt ho, State.answer_storage, State.configure_storage, Memory.get_zeroBelow]
    exact congrArg some (if_pos ho)
  · rw [State.physByte_of_capacity_le ho, State.physByte_of_capacity_le (by simp [hNone])]
    rfl

/-- Settles O24, by the branches of CREATE. -/
theorem createFaultsInOrder : Obligations.CreateFaultsInOrder := by
  intro s size
  refine ⟨execCreate_of_active size, fun hs hBad => ?_, fun hs hPos hMax hFull => ?_⟩
  · rw [exec_create, execCreate_of_unconfigured size hs, if_pos ((size_illegal_iff size).mpr hBad)]
  · rw [exec_create, execCreate_of_unconfigured size hs, if_neg (size_legal hPos hMax),
      if_pos (BitVec.lt_def.mpr hFull)]

/-! ### DESTROY (R71) -/

theorem execDestroy_of_active {s : State} (hs : s.state = .active) :
    execDestroy s =
      if s.transferInFlight then .next (s.raise .destroyBusy .ctl (encodeWord .destroy))
      else .next (s.release.answer .ctl .ok 0#32 []) := by
  simp [execDestroy, hs]

/-- Whether a transfer is in flight, by the phases. -/
theorem State.transferInFlight_iff (s : State) :
    s.transferInFlight = true ↔ s.prod.phase ≠ .idle ∨ s.cons.phase ≠ .idle := by
  simp [State.transferInFlight, State.busy]

/-- Settles O26: with both ports idle DESTROY releases the buffer, and without a capacity every byte is the draw's. -/
theorem destroyReleasesTheBuffer : Obligations.DestroyReleasesTheBuffer := by
  intro s hs hProd hCons
  have hIdle : ¬ s.transferInFlight = true := by simp [s.transferInFlight_iff, hProd, hCons]
  refine ⟨s.release.answer .ctl .ok 0#32 [], ?_, rfl, rfl, rfl, rfl,
    fun o => State.physByte_of_capacity_le (Nat.zero_le o), rfl⟩
  rw [exec_destroy, execDestroy_of_active hs, if_neg hIdle]

/-- Settles O27, by the branches of DESTROY. -/
theorem destroyFaultsInOrder : Obligations.DestroyFaultsInOrder := by
  intro s
  refine ⟨fun hs => ?_, fun hs hBusy => ?_⟩
  · simp [exec_destroy, execDestroy, hs]
  · rw [exec_destroy, execDestroy_of_active hs, if_pos (s.transferInFlight_iff.mpr hBusy)]

/-! ### READ and WRITE before CREATE (60_exceptions R85) -/

theorem writeStep_of_unconfigured {s : State} (ap : Bool) (len : U32) (src : List Byte) (c : U64)
    (hs : s.state = .unconfigured) (hp : s.prod.phase = .idle) :
    writeStep ap len src c s = .next (s.raise .notConfigured .prod c) := by
  simp [writeStep, hp, writeAccept, hs]

theorem readStep_of_unconfigured {s : State} (ap : Bool) (len : U32) (c : U64) (hs : s.state = .unconfigured)
    (hc : s.cons.phase = .idle) : readStep ap len c s = .next (s.raise .notConfigured .cons c) := by
  simp [readStep, hc, readAccept, hs]

/-- Settles O28: the check comes before SNAP. -/
theorem transfersNeedABuffer : Obligations.TransfersNeedABuffer := fun _ len src hs =>
  ⟨fun hp => ⟨writeStep_of_unconfigured _ len src _ hs hp, writeStep_of_unconfigured _ len src _ hs hp⟩,
    fun hc => ⟨readStep_of_unconfigured _ len _ hs hc, readStep_of_unconfigured _ len _ hs hc⟩⟩

/-! ### All that each command can do, in every state -/

/-- All that CREATE and DESTROY can do. -/
inductive LifecycleNext (s : State) : State → Prop
  | refused (hs : s.state = .faulted) : LifecycleNext s (s.refuse .ctl)
  | raised (cause : Cause) (c : U64) (hs : s.state ≠ .faulted) : LifecycleNext s (s.raise cause .ctl c)
  | created (c : U32) (hs : s.state = .unconfigured) : LifecycleNext s ((s.configure c).answer .ctl .ok c [])
  | destroyed (hs : s.state = .active) : LifecycleNext s (s.release.answer .ctl .ok 0#32 [])

theorem lifecycleNext_of_create {s t : State} {size : U32} (h : exec (.create size) s = .next t) :
    LifecycleNext s t := by
  rw [exec_create] at h
  match hs : s.state with
  | .faulted =>
    rw [execCreate, if_pos hs] at h
    cases h
    exact .refused hs
  | .active =>
    rw [execCreate_of_active size hs] at h
    cases h
    exact .raised _ _ (by simp [hs])
  | .unconfigured =>
    rw [execCreate_of_unconfigured size hs] at h
    split_ifs at h <;> cases h
    · exact .raised _ _ (by simp [hs])
    · exact .raised _ _ (by simp [hs])
    · exact .created _ hs

theorem lifecycleNext_of_destroy {s t : State} (h : exec .destroy s = .next t) : LifecycleNext s t := by
  match hs : s.state with
  | .faulted =>
    rw [exec_destroy, execDestroy, if_pos hs] at h
    cases h
    exact .refused hs
  | .unconfigured =>
    rw [(destroyFaultsInOrder s).1 hs] at h
    cases h
    exact .raised _ _ (by simp [hs])
  | .active =>
    rw [exec_destroy, execDestroy_of_active hs] at h
    split_ifs at h <;> cases h
    · exact .raised _ _ (by simp [hs])
    · exact .destroyed hs

/-- All that a WRITE's step can do, by PROD's phase. -/
inductive WriteNext (s : State) : State → Prop
  | refused (hp : s.prod.phase = .idle) (hs : s.state = .faulted) : WriteNext s (s.refuse .prod)
  | raised (c : U64) (hp : s.prod.phase = .idle) (hs : s.state = .unconfigured) :
      WriteNext s (s.raise .notConfigured .prod c)
  | failed (hp : s.prod.phase = .idle) : WriteNext s (s.answer .prod .ok 0#32 [])
  | snapped (r : ProdRegs) (hp : s.prod.phase = .idle) (hr : r.phase = .copy) : WriteNext s { s with prod := r }
  | copied (hp : s.prod.phase = .copy) :
      WriteNext s { s with storage := s.copied, prod := { s.prod with phase := .pub } }
  | published (hp : s.prod.phase = .pub) :
      WriteNext s (State.answer
        { s with writeSeq := s.prod.base + s.prod.n, prod := { s.prod with phase := .idle } } .prod .ok s.prod.n [])

theorem writeNext_of_writeStep {s t : State} {ap : Bool} {len : U32} {src : List Byte} {c : U64}
    (h : writeStep ap len src c s = .next t) : WriteNext s t := by
  match hp : s.prod.phase with
  | .idle =>
    match hs : s.state with
    | .faulted =>
      simp only [writeStep, hp, writeAccept, if_pos hs] at h
      cases h
      exact .refused hp hs
    | .unconfigured =>
      rw [writeStep_of_unconfigured ap len src c hs hp] at h
      cases h
      exact .raised c hp hs
    | .active =>
      rw [writeStep_of_idle ap len src c hs hp, writeSnap_eq] at h
      split_ifs at h <;> cases h
      · exact .failed hp
      · exact .snapped _ hp rfl
  | .copy =>
    rw [writeStep_of_copy ap len src c hp] at h
    obtain ⟨-, rfl⟩ := writeCopy_next h
    exact .copied hp
  | .pub =>
    rw [writeStep_of_pub ap len src c hp] at h
    obtain ⟨-, rfl⟩ := writePub_next h
    exact .published hp

/-- All that a READ's step can do, by CONS's phase. -/
inductive ReadNext (s : State) : State → Prop
  | refused (hc : s.cons.phase = .idle) (hs : s.state = .faulted) : ReadNext s (s.refuse .cons)
  | raised (c : U64) (hc : s.cons.phase = .idle) (hs : s.state = .unconfigured) :
      ReadNext s (s.raise .notConfigured .cons c)
  | failed (hc : s.cons.phase = .idle) : ReadNext s (s.answer .cons .ok 0#32 [])
  | snapped (r : ConsRegs) (hc : s.cons.phase = .idle) (hr : r.phase = .copy) : ReadNext s { s with cons := r }
  | copied (data : List Byte) (hc : s.cons.phase = .copy) :
      ReadNext s { s with cons := { s.cons with phase := .pub, data := data } }
  | published (hc : s.cons.phase = .pub) :
      ReadNext s (State.answer
        { s with readSeq := s.cons.base + s.cons.n, cons := { s.cons with phase := .idle } }
        .cons .ok s.cons.n s.cons.data)

theorem readNext_of_readStep {s t : State} {ap : Bool} {len : U32} {c : U64}
    (h : readStep ap len c s = .next t) : ReadNext s t := by
  match hc : s.cons.phase with
  | .idle =>
    match hs : s.state with
    | .faulted =>
      simp only [readStep, hc, readAccept, if_pos hs] at h
      cases h
      exact .refused hc hs
    | .unconfigured =>
      rw [readStep_of_unconfigured ap len c hs hc] at h
      cases h
      exact .raised c hc hs
    | .active =>
      rw [readStep_of_idle ap len c hs hc, readSnap_eq] at h
      split_ifs at h <;> cases h
      · exact .failed hc
      · exact .snapped _ hc rfl
  | .copy =>
    rw [readStep_of_copy ap len c hc] at h
    obtain ⟨-, data, rfl⟩ := readCopy_next h
    exact .copied data hc
  | .pub =>
    rw [readStep_of_pub ap len c hc] at h
    obtain ⟨-, rfl⟩ := readPub_next h
    exact .published hc

/-! ### The canonical form of storage (log 6) -/

theorem LifecycleNext.wf {s t : State} (ht : LifecycleNext s t) (h : Memory.wf s.storage) : Memory.wf t.storage := by
  cases ht with
  | refused _ => exact h
  | raised cause c _ => exact h
  | created c _ => exact Memory.wf_zeroBelow h _
  | destroyed _ => exact ⟨.nil, nofun⟩

theorem WriteNext.wf {s t : State} (ht : WriteNext s t) (h : Memory.wf s.storage) : Memory.wf t.storage := by
  cases ht with
  | copied _ => exact State.copied_wf h
  | _ => exact h

theorem ReadNext.wf {s t : State} (ht : ReadNext s t) (h : Memory.wf s.storage) : Memory.wf t.storage := by
  cases ht <;> exact h

/-- Settles O21: only CREATE's fill, DESTROY and WRITE's COPY write storage, and each keeps the form. -/
theorem execKeepsStorageCanonical : Obligations.ExecKeepsStorageCanonical := by
  intro i s t h ht
  cases i with
  | create size => exact (lifecycleNext_of_create ht).wf h
  | destroy => exact (lifecycleNext_of_destroy ht).wf h
  | writeAll len src => exact (writeNext_of_writeStep ht).wf h
  | writePart len src => exact (writeNext_of_writeStep ht).wf h
  | readAll len => exact (readNext_of_readStep ht).wf h
  | readPart len => exact (readNext_of_readStep ht).wf h
  | rdreg reg =>
    rw [exec_rdreg] at ht
    cases ht
    exact h

end Sys2Proof.Machine

/-! PROOFS. What each command leaves unchanged, by all that it can do. -/

namespace Sys2Proof.Machine

/-- Bytes depend on storage, the capacity and the draw only. -/
theorem State.bytes_congr {s t : State} (hStore : t.storage = s.storage) (hCap : t.capacity = s.capacity)
    (hDraws : t.draws = s.draws) (a : Nat) : t.memRead a = s.memRead a ∧ t.physByte a = s.physByte a :=
  ⟨State.memRead_congr hStore hCap a, State.physByte_congr hStore hCap hDraws a⟩

/-- From the capacity on no byte exists for a command, and the physical one is the draw's (20_memory R33). -/
theorem State.bytes_of_capacity_le {s : State} {a : Nat} (h : s.capacity.toNat ≤ a) :
    s.memRead a = none ∧ s.physByte a = Config.storageDraw s.draws a :=
  ⟨(s.memRead_eq a).trans (if_neg (Nat.not_lt.mpr h)), State.physByte_of_capacity_le h⟩

/-- What is above the capacity after a CREATE was above the capacity before it, which was 0. -/
theorem Inv.bytes_created {s : State} (h : Inv s) (hs : s.state = .unconfigured) {c : U32} {a : Nat}
    (ha : c.toNat ≤ a) :
    State.memRead ((s.configure c).answer .ctl .ok c []) a = s.memRead a ∧
      State.physByte ((s.configure c).answer .ctl .ok c []) a = s.physByte a := by
  obtain ⟨hRead, hPhys⟩ := State.bytes_of_capacity_le (s := (s.configure c).answer .ctl .ok c []) ha
  obtain ⟨hRead', hPhys'⟩ := State.bytes_of_capacity_le (s := s) (a := a) (by simp [h.unconfigured hs])
  rw [hRead, hPhys, hRead', hPhys']
  exact ⟨rfl, rfl⟩

/-- Settles O54, by all that CREATE and DESTROY can do. -/
theorem lifecycleFrame : Obligations.LifecycleFrame := by
  intro s t size h ht
  have hNext : LifecycleNext s t := ht.elim lifecycleNext_of_create lifecycleNext_of_destroy
  cases hNext with
  | refused hs =>
    exact ⟨rfl, rfl, rfl, rfl, rfl, rfl, rfl, rfl, fun _ => ⟨rfl, rfl, rfl⟩,
      fun _ => ⟨rfl, rfl, rfl, rfl, State.bytes_congr rfl rfl rfl⟩, fun ht => nomatch hs.symm.trans ht⟩
  | raised cause c hs =>
    exact ⟨rfl, rfl, rfl, rfl, rfl, rfl, rfl, rfl, fun hor => absurd hor (not_or.mpr ⟨not_not.mpr rfl, hs⟩),
      fun _ => ⟨rfl, rfl, rfl, rfl, State.bytes_congr rfl rfl rfl⟩, nofun⟩
  | created c hs =>
    exact ⟨rfl, rfl, rfl, rfl, rfl, rfl, rfl, rfl, fun _ => ⟨rfl, rfl, rfl⟩, nofun,
      fun _ => ⟨rfl, fun a ha => h.bytes_created hs ha⟩⟩
  | destroyed hs =>
    exact ⟨rfl, rfl, rfl, rfl, rfl, rfl, rfl, rfl, fun _ => ⟨rfl, rfl, rfl⟩, nofun, nofun⟩

/-- WRITE's COPY leaves every byte outside the two segments, in every state. -/
theorem State.get_copied_of_outside (s : State) {a : Nat}
    (hTail : ¬ ((segments s.capacity s.prod.base s.prod.n).off ≤ a ∧
      a < (segments s.capacity s.prod.base s.prod.n).off + (segments s.capacity s.prod.base s.prod.n).tail))
    (hWrap : ¬ a < (segments s.capacity s.prod.base s.prod.n).wrap) :
    Memory.get s.copied a = Memory.get s.storage a := by
  have hTailLen := List.length_take_le (segments s.capacity s.prod.base s.prod.n).tail s.prod.payload
  have hWrapLen := List.length_take_le (segments s.capacity s.prod.base s.prod.n).wrap
    (s.prod.payload.drop (segments s.capacity s.prod.base s.prod.n).tail)
  rw [State.copied, Memory.get_setList_of_outside _ _ _ (by omega), Memory.get_setList_of_outside _ _ _ (by omega)]

/-- Settles O55: a WRITE's step touches nothing else in any case, and each further clause fails in one case at most. -/
theorem writeFrame : Obligations.WriteFrame := by
  intro s t len src ht g
  have hNext : WriteNext s t := ht.elim writeNext_of_writeStep writeNext_of_writeStep
  refine ⟨?_, ?_, ?_, ?_, ?_, ?_, ?_, ?_, ?_, ?_, fun hPast => ?_, fun hPub => ?_, fun hBusy => ?_,
    fun hIdle hStay => ?_, fun hCopy a => ?_, fun hCopy a hTail hWrap => ?_⟩
  iterate 10 · cases hNext <;> rfl
  · cases hNext with
    | raised c hp hs => exact absurd hPast (not_or.mpr ⟨not_not.mpr hs, not_not.mpr hp⟩)
    | _ => exact ⟨rfl, rfl, rfl, rfl⟩
  · cases hNext with
    | published hp => exact absurd hp hPub
    | _ => rfl
  · cases hNext with
    | snapped r hp _ => exact absurd hp hBusy
    | _ => rfl
  · cases hNext with
    | snapped r _ hr => exact nomatch hr.symm.trans hStay
    | copied hp => exact nomatch hp.symm.trans hIdle
    | published hp => exact nomatch hp.symm.trans hIdle
    | _ => rfl
  · cases hNext with
    | copied hp => exact absurd hp hCopy
    | _ => exact State.memRead_congr rfl rfl a
  · cases hNext with
    | copied _ => rw [State.memRead_eq, State.memRead_eq, s.get_copied_of_outside hTail hWrap]
    | _ => exact State.memRead_congr rfl rfl a

/-- Settles O56: a READ's step touches nothing else in any case, and each further clause fails in one case at most. -/
theorem readFrame : Obligations.ReadFrame := by
  intro s t len ht
  have hNext : ReadNext s t := ht.elim readNext_of_readStep readNext_of_readStep
  refine ⟨?_, ?_, ?_, ?_, ?_, ?_, ?_, ?_, ?_, ?_, fun a => ?_, fun hPast => ?_, fun hPub => ?_, fun hBusy => ?_,
    fun hPub => ?_, fun hIdle hStay => ?_⟩
  iterate 10 · cases hNext <;> rfl
  · cases hNext <;> exact State.bytes_congr rfl rfl rfl a
  · cases hNext with
    | raised c hc hs => exact absurd hPast (not_or.mpr ⟨not_not.mpr hs, not_not.mpr hc⟩)
    | _ => exact ⟨rfl, rfl, rfl, rfl⟩
  · cases hNext with
    | published hc => exact absurd hc hPub
    | _ => rfl
  · cases hNext with
    | snapped r hc _ => exact absurd hc hBusy
    | _ => rfl
  · cases hNext with
    | snapped r hc _ => exact nomatch hc.symm.trans hPub
    | copied data hc => exact nomatch hc.symm.trans hPub
    | _ => rfl
  · cases hNext with
    | snapped r _ hr => exact nomatch hr.symm.trans hStay
    | copied data hc => exact nomatch hc.symm.trans hIdle
    | published hc => exact nomatch hc.symm.trans hIdle
    | _ => rfl

/-- Settles O57: RDREG only answers. -/
theorem rdregFrame : Obligations.RdregFrame := by
  intro s t reg h
  rw [exec_rdreg] at h
  cases h
  exact ⟨s.answer_frame _ _ _ _, rfl, State.bytes_congr rfl rfl rfl⟩

end Sys2Proof.Machine

/-! PROOFS. A whole WRITE and a whole READ, three steps each (42_write R76, 41_read R72), one after the other, and of
length 0 (20_memory R38, 70_reset_and_hazards R106). -/

namespace Sys2Proof.Machine

/-! ### Three steps of a command -/

theorem execTimes_succ {i : Instr} {s t : State} (k : Nat) (h : exec i s = .next t) :
    execTimes (k + 1) i s = execTimes k i t := by
  simp only [execTimes, h]

/-- Three steps, each from the state the last one left. -/
theorem execTimes_three {i : Instr} {s t u v : State} (hFirst : exec i s = .next t) (hSecond : exec i t = .next u)
    (hThird : exec i u = .next v) : execTimes 3 i s = .next v := by
  rw [execTimes_succ _ hFirst, execTimes_succ _ hSecond, execTimes_succ _ hThird, execTimes]

/-- What a whole transfer needs of the buffer, and keeps. Unlike the invariant it says nothing of the ports, so it holds
after a command that no program offers. -/
structure State.HasBuffer (s : State) : Prop where
  memory : Memory.wf s.storage
  power : ∃ k, s.capacity.toNat = 2 ^ k
  occupancy : s.level ≤ s.capacity

theorem Inv.hasBuffer {s : State} (h : Inv s) (hs : s.state = .active) : s.HasBuffer := by
  obtain ⟨k, -, hk⟩ := h.power (h.active hs)
  exact ⟨h.memory, ⟨k, hk⟩, h.occupancy⟩

/-- What a transfer moves as a number and as a word. -/
theorem ofNat_min_eq_clamp (requested available : U32) :
    BitVec.ofNat 32 (min requested.toNat available.toNat) = clamp requested available := by
  rw [← clamp_toNat, BitVec.ofNat_toNat, BitVec.setWidth_eq]

/-! ### WRITE (R76) -/

/-- After SNAP of a WRITE. -/
def State.snappedWrite (s : State) (ap : Bool) (len : U32) (src : List Byte) : State :=
  { s with prod := ⟨.copy, len, ap, src, s.writeSeq, s.readSeq, clamp len s.free⟩ }

/-- After COPY of that WRITE. -/
def State.copiedWrite (s : State) (ap : Bool) (len : U32) (src : List Byte) : State :=
  { s.snappedWrite ap len src with
    storage := (s.snappedWrite ap len src).copied
    prod := { (s.snappedWrite ap len src).prod with phase := .pub } }

/-- After PUB of that WRITE. -/
def State.written (s : State) (ap : Bool) (len : U32) (src : List Byte) : State :=
  State.answer
    { s.copiedWrite ap len src with
      writeSeq := s.writeSeq + clamp len s.free
      prod := { (s.copiedWrite ap len src).prod with phase := .idle } }
    .prod .ok (clamp len s.free) []

theorem State.written_readSeq (s : State) (ap : Bool) (len : U32) (src : List Byte) :
    (s.written ap len src).readSeq = s.readSeq := rfl

theorem State.written_writeSeq (s : State) (ap : Bool) (len : U32) (src : List Byte) :
    (s.written ap len src).writeSeq = s.writeSeq + clamp len s.free := rfl

/-- The bytes of a WRITE that moves what it can fit. -/
theorem State.HasBuffer.room {s : State} (h : s.HasBuffer) (len : U32) :
    s.level.toNat + (clamp len s.free).toNat ≤ s.capacity.toNat := by
  have hLevel := BitVec.le_def.mp h.occupancy
  rw [clamp_toNat, State.free, BitVec.toNat_sub_of_le h.occupancy]
  omega

/-- The buffered bytes are not among those that COPY stores, when all fit. -/
theorem State.queue_copied {s : State} {k : Nat} (hm : Memory.wf s.storage) (hk : s.capacity.toNat = 2 ^ k)
    (hBase : s.prod.base = s.writeSeq) (hRoom : s.level.toNat + s.prod.n.toNat ≤ s.capacity.toNat)
    (hPayload : s.prod.n.toNat ≤ s.prod.payload.length) (r : ProdRegs) :
    State.queue { s with storage := s.copied, prod := r } = s.queue := by
  have hn : s.prod.n ≤ s.capacity := BitVec.le_def.mpr (by omega)
  refine State.window_congr fun i hi => (State.get_copied hm hk hn hPayload).2 _ fun j hj heq => ?_
  rw [hBase, s.writeSeq_eq, BitVec.add_assoc, ← BitVec.ofNat_add] at heq
  have hi : i < s.level.toNat := hi
  have hSame := offset_injective hk s.readSeq (by omega) (by omega) heq
  omega

section
variable {s : State} {ap : Bool} {len : U32} {src : List Byte} (h : s.HasBuffer) (hSrc : src.length = len.toNat)
include h hSrc

/-- The WRITE's operands have the bytes that it moves. -/
theorem State.HasBuffer.snappedWrite_fits :
    ∃ k, s.capacity.toNat = 2 ^ k ∧ clamp len s.free ≤ s.capacity ∧ (clamp len s.free).toNat ≤ src.length := by
  obtain ⟨k, hk⟩ := h.power
  have hRoom := h.room len
  refine ⟨k, hk, BitVec.le_def.mpr (by omega), ?_⟩
  rw [clamp_toNat]
  omega

/-- The three steps of a WRITE that is no all-or-nothing failure. -/
theorem State.HasBuffer.execTimes_write {i : Instr} {c : U64} (hi : ∀ u, exec i u = writeStep ap len src c u)
    (hs : s.state = .active) (hp : s.prod.phase = .idle) (hMoves : ap = true ∨ len.toNat ≤ s.free.toNat) :
    execTimes 3 i s = .next (s.written ap len src) := by
  obtain ⟨k, hk, hn, hPayload⟩ := h.snappedWrite_fits hSrc
  have hNotFaulted : s.state ≠ .faulted := by simp [hs]
  have hSnap : writeStep ap len src c s = .next (s.snappedWrite ap len src) := by
    rw [writeStep_of_idle ap len src c hs hp, writeSnap_of_moves src hMoves, State.snappedWrite]
  have hCopy : writeStep ap len src c (s.snappedWrite ap len src) = .next (s.copiedWrite ap len src) := by
    rw [writeStep_of_copy ap len src c rfl, State.copiedWrite]
    exact writeCopy_eq hNotFaulted hk hn hPayload
  have hPub : writeStep ap len src c (s.copiedWrite ap len src) = .next (s.written ap len src) := by
    rw [writeStep_of_pub ap len src c rfl, State.written]
    exact writePub_eq hNotFaulted
  exact execTimes_three ((hi _).trans hSnap) ((hi _).trans hCopy) ((hi _).trans hPub)

/-- A WRITE appends the first bytes of its payload to those buffered. -/
theorem State.HasBuffer.queue_written :
    (s.written ap len src).queue = s.queue ++ src.take (clamp len s.free).toNat := by
  obtain ⟨k, hk, hn, hPayload⟩ := h.snappedWrite_fits hSrc
  have hRoom := h.room len
  have hCap := s.capacity.isLt
  have hOld : (s.copiedWrite ap len src).queue = s.queue :=
    State.queue_copied (s := s.snappedWrite ap len src) h.memory hk rfl hRoom hPayload _
  have hNew : (s.copiedWrite ap len src).window s.writeSeq (clamp len s.free).toNat =
      src.take (clamp len s.free).toNat :=
    State.window_copied (s := s.snappedWrite ap len src) h.memory hk hn hPayload _
  have hAppend : (s.written ap len src).queue =
      (s.copiedWrite ap len src).queue ++ (s.copiedWrite ap len src).window s.writeSeq (clamp len s.free).toNat :=
    State.queue_of_write rfl rfl rfl rfl (hRoom.trans_lt hCap)
  rw [hAppend, hOld, hNew]

end

/-- A WRITE keeps the buffer. -/
theorem State.HasBuffer.written {s : State} (h : s.HasBuffer) (ap : Bool) (len : U32) (src : List Byte) :
    (s.written ap len src).HasBuffer where
  memory := State.copied_wf (s := s.snappedWrite ap len src) h.memory
  power := h.power
  occupancy := by
    have hRoom := h.room len
    have hCap := s.capacity.isLt
    rw [BitVec.le_def]
    exact (State.level_write (hRoom.trans_lt hCap)).trans_le hRoom

/-- Settles O32: both WRITEs are the three steps of `State.written`, whose queue is the old one and the bytes moved. -/
theorem wholeWriteAppends : Obligations.WholeWriteAppends := by
  intro s len src h hs hp hSrc n wrote
  have hBuffer := h.hasBuffer hs
  have hn : BitVec.ofNat 32 n = clamp len s.free := ofNat_min_eq_clamp len s.free
  have hWrote (ap : Bool) : wrote (s.written ap len src) := by
    refine ⟨by rw [hn]; rfl, rfl, rfl, hs, rfl, rfl, ?_, by rw [hn]; rfl⟩
    rw [hBuffer.queue_written hSrc, clamp_toNat]
  exact ⟨⟨_, hBuffer.execTimes_write hSrc (fun _ => rfl) hs hp (.inl rfl), hWrote true⟩,
    fun hFits => ⟨_, hBuffer.execTimes_write hSrc (fun _ => rfl) hs hp (.inr hFits), hWrote false⟩⟩

/-! ### READ (R72) -/

/-- After SNAP of a READ. -/
def State.snappedRead (s : State) (ap : Bool) (len : U32) : State :=
  { s with cons := ⟨.copy, len, ap, s.readSeq, s.writeSeq, clamp len s.level, s.cons.data⟩ }

/-- After COPY of that READ. -/
def State.copiedRead (s : State) (ap : Bool) (len : U32) : State :=
  { s.snappedRead ap len with
    cons := { (s.snappedRead ap len).cons with
      phase := .pub, data := s.window s.readSeq (clamp len s.level).toNat } }

/-- After PUB of that READ. -/
def State.taken (s : State) (ap : Bool) (len : U32) : State :=
  State.answer
    { s.copiedRead ap len with
      readSeq := s.readSeq + clamp len s.level
      cons := { (s.copiedRead ap len).cons with phase := .idle } }
    .cons .ok (clamp len s.level) (s.window s.readSeq (clamp len s.level).toNat)

theorem State.taken_readSeq (s : State) (ap : Bool) (len : U32) :
    (s.taken ap len).readSeq = s.readSeq + clamp len s.level := rfl

theorem State.taken_writeSeq (s : State) (ap : Bool) (len : U32) : (s.taken ap len).writeSeq = s.writeSeq := rfl

/-- The three steps of a READ that is no all-or-nothing failure. -/
theorem State.HasBuffer.execTimes_read {s : State} (h : s.HasBuffer) {ap : Bool} {len : U32} {i : Instr} {c : U64}
    (hi : ∀ u, exec i u = readStep ap len c u) (hs : s.state = .active) (hc : s.cons.phase = .idle)
    (hMoves : ap = true ∨ len.toNat ≤ s.level.toNat) : execTimes 3 i s = .next (s.taken ap len) := by
  obtain ⟨k, hk⟩ := h.power
  have hn : clamp len s.level ≤ s.capacity := BitVec.le_trans (clamp_le_available _ _) h.occupancy
  have hNotFaulted : s.state ≠ .faulted := by simp [hs]
  have hSnap : readStep ap len c s = .next (s.snappedRead ap len) := by
    rw [readStep_of_idle ap len c hs hc, readSnap_of_moves hMoves, State.snappedRead]
  have hCopy : readStep ap len c (s.snappedRead ap len) = .next (s.copiedRead ap len) := by
    rw [readStep_of_copy ap len c rfl, State.copiedRead]
    exact readCopy_eq hNotFaulted hk hn
  have hPub : readStep ap len c (s.copiedRead ap len) = .next (s.taken ap len) := by
    rw [readStep_of_pub ap len c rfl, State.taken]
    exact readPub_eq hNotFaulted
  exact execTimes_three ((hi _).trans hSnap) ((hi _).trans hCopy) ((hi _).trans hPub)

/-- A READ takes its bytes off the front. -/
theorem State.queue_taken (s : State) (ap : Bool) (len : U32) :
    (s.taken ap len).queue = s.queue.drop (clamp len s.level).toNat :=
  State.queue_of_read rfl rfl rfl rfl (clamp_le_available _ _)

/-- A READ answers with the bytes it takes. -/
theorem State.taken_responses (s : State) (ap : Bool) (len : U32) :
    (s.taken ap len).consIo.responses = s.consIo.responses ++
      [⟨clamp len s.level ++ 0#30 ++ 0#2, s.queue.take (clamp len s.level).toNat⟩] := by
  rw [State.queue_take (clamp_le_available _ _)]
  rfl

/-- Settles O36: both READs are the three steps of `State.taken`, which takes the front of the queue. -/
theorem wholeReadTakes : Obligations.WholeReadTakes := by
  intro s len h hs hc n took
  have hBuffer := h.hasBuffer hs
  have hn : BitVec.ofNat 32 n = clamp len s.level := ofNat_min_eq_clamp len s.level
  have hNat : n = (clamp len s.level).toNat := (clamp_toNat _ _).symm
  have hTook (ap : Bool) : took (s.taken ap len) := by
    refine ⟨by rw [hn]; rfl, rfl, rfl, hs, rfl, rfl, rfl, by rw [s.queue_taken, hNat], ?_⟩
    rw [hn, hNat, ← s.taken_responses ap]
    rfl
  exact ⟨⟨_, hBuffer.execTimes_read (fun _ => rfl) hs hc (.inl rfl), hTook true⟩,
    fun hFits => ⟨_, hBuffer.execTimes_read (fun _ => rfl) hs hc (.inr hFits), hTook false⟩⟩

/-! ### A WRITE and then a READ (20_memory R38) -/

theorem clamp_of_le {requested available : U32} (h : requested.toNat ≤ available.toNat) :
    clamp requested available = requested := if_pos h

/-- Settles O37: the WRITE fills the empty queue with its payload, and the READ takes it all. -/
theorem writeThenReadRoundTrips : Obligations.WriteThenReadRoundTrips := by
  intro s len src h hs hp hc hEmpty hSrc hFits
  have hBuffer := h.hasBuffer hs
  have hLevel : s.level = 0#32 := by rw [State.level, hEmpty, BitVec.sub_self]
  have hFree : len.toNat ≤ s.free.toNat := by simpa [h.free_toNat, hLevel] using hFits
  have hAll := clamp_of_le hFree
  have hQueue : (s.written false len src).queue = src := by
    rw [hBuffer.queue_written hSrc, State.queue_eq_nil hEmpty, hAll, ← hSrc, List.take_length, List.nil_append]
  have hWrittenLevel : (s.written false len src).level = len := by
    rw [State.level, State.written_writeSeq, State.written_readSeq, hAll, hEmpty, BitVec.add_comm,
      BitVec.add_sub_cancel]
  have hTakesAll : clamp len (s.written false len src).level = len := clamp_of_le (by rw [hWrittenLevel])
  refine ⟨s.written false len src, (s.written false len src).taken false len,
    hBuffer.execTimes_write hSrc (fun _ => rfl) hs hp (.inr hFree),
    (hBuffer.written false len src).execTimes_read (fun _ => rfl) hs hc (.inr (by rw [hWrittenLevel])), ?_, ?_, ?_⟩
  · rw [State.taken_responses, hTakesAll, hQueue, ← hSrc, List.take_length]
    rfl
  · rw [State.taken_readSeq, hTakesAll, State.written_readSeq]
  · rw [State.taken_writeSeq, State.taken_readSeq, hTakesAll, State.written_writeSeq, State.written_readSeq, hAll,
      hEmpty]

/-! ### Length 0 (70_reset_and_hazards R106) -/

theorem clamp_zero_requested (available : U32) : clamp 0#32 available = 0#32 := clamp_of_le (Nat.zero_le _)

theorem clamp_zero_available (requested : U32) : clamp requested 0#32 = 0#32 :=
  BitVec.eq_of_toNat_eq ((clamp_toNat _ _).trans (Nat.min_zero _))

/-- A COPY of no bytes leaves storage. -/
theorem State.copied_of_none {s : State} (h : s.prod.n = 0#32) : s.copied = s.storage := by
  simp [State.copied, segments, h, Memory.setList]

/-- Settles O38: each of these commands takes its three steps and moves the clamp of its length, which is 0. -/
theorem zeroLengthTransfersDoNothing : Obligations.ZeroLengthTransfersDoNothing := by
  intro s len src h hs unchanged writes reads
  have hBuffer := h.hasBuffer hs
  have hWrites {i : Instr} {ap : Bool} {len : U32} {src : List Byte} {c : U64}
      (hi : ∀ u, exec i u = writeStep ap len src c u) (hp : s.prod.phase = .idle) (hSrc : src.length = len.toNat)
      (hMoves : ap = true ∨ len.toNat ≤ s.free.toNat) (hNone : clamp len s.free = 0#32) : writes i := by
    refine ⟨s.written ap len src, hBuffer.execTimes_write hSrc hi hs hp hMoves, ⟨rfl, rfl, rfl, ?_, ?_⟩, ?_⟩
    · rw [State.written_writeSeq, hNone, BitVec.add_zero]
    · exact State.memRead_congr (State.copied_of_none (s := s.snappedWrite ap len src) hNone) rfl
    · rw [← hNone]
      rfl
  have hReads {i : Instr} {ap : Bool} {len : U32} {c : U64} (hi : ∀ u, exec i u = readStep ap len c u)
      (hc : s.cons.phase = .idle) (hMoves : ap = true ∨ len.toNat ≤ s.level.toNat)
      (hNone : clamp len s.level = 0#32) : reads i := by
    refine ⟨s.taken ap len, hBuffer.execTimes_read hi hs hc hMoves,
      ⟨rfl, rfl, ?_, rfl, State.memRead_congr rfl rfl⟩, ?_⟩
    · rw [State.taken_readSeq, hNone, BitVec.add_zero]
    · rw [State.taken_responses, hNone]
      rfl
  refine ⟨fun hp => ⟨?_, ?_, fun hFull hSrc => ?_⟩, fun hc => ⟨?_, ?_, fun hEmpty => ?_⟩⟩
  · exact hWrites (fun _ => rfl) hp rfl (.inr (Nat.zero_le _)) (clamp_zero_requested _)
  · exact hWrites (fun _ => rfl) hp rfl (.inl rfl) (clamp_zero_requested _)
  · exact hWrites (fun _ => rfl) hp hSrc (.inl rfl) (hFull ▸ clamp_zero_available len)
  · exact hReads (fun _ => rfl) hc (.inr (Nat.zero_le _)) (clamp_zero_requested _)
  · exact hReads (fun _ => rfl) hc (.inl rfl) (clamp_zero_requested _)
  · exact hReads (fun _ => rfl) hc (.inl rfl) (hEmpty ▸ clamp_zero_available len)

end Sys2Proof.Machine

/-! PROOFS. The assembler (30_encoding R67, R68): the request of each mnemonic, and what its port decodes. -/

namespace Sys2Proof.Machine

/-! ### WRITE and READ lines -/

/-- A WRITE with `AP = ap`. -/
def writeOf (ap : BitVec 1) (len : U32) (bs : List Byte) : Instr :=
  if ap = 0#1 then .writeAll len bs else .writePart len bs

/-- A READ with `AP = ap`. -/
def readOf (ap : BitVec 1) (len : U32) : Instr := if ap = 0#1 then .readAll len else .readPart len

theorem encode_writeOf (ap : BitVec 1) (len : U32) (bs : List Byte) :
    encode (writeOf ap len bs) = ⟨commandWord len 0#8 ap (opcodeBits .write), bs⟩ := by
  rcases BitVec.eq_zero_or_eq_one ap with rfl | rfl <;> rfl

theorem encode_readOf (ap : BitVec 1) (len : U32) :
    encode (readOf ap len) = ⟨commandWord len 0#8 ap (opcodeBits .read), []⟩ := by
  rcases BitVec.eq_zero_or_eq_one ap with rfl | rfl <;> rfl

theorem decode_writeOf {ap : BitVec 1} {len : U32} {bs : List Byte} (h : bs.length = len.toNat) :
    decode .prod (encode (writeOf ap len bs)) = .ok (writeOf ap len bs) := by
  have hFits : payloadFits len bs = true := beq_iff_eq.mpr h
  rcases BitVec.eq_zero_or_eq_one ap with rfl | rfl
  · exact decodeInvertsEncode (.writeAll len bs) hFits
  · exact decodeInvertsEncode (.writePart len bs) hFits

theorem decode_readOf (ap : BitVec 1) (len : U32) :
    decode .cons (encode (readOf ap len)) = .ok (readOf ap len) := by
  rcases BitVec.eq_zero_or_eq_one ap with rfl | rfl
  · exact decodeInvertsEncode (.readAll len) rfl
  · exact decodeInvertsEncode (.readPart len) rfl

/-- A WRITE line with its length. -/
theorem writeLine_of_len (ap : BitVec 1) {n : List Char} {ts : List Token} {len : U32} {bs : List Byte}
    (hLen : u32Operand n = some len) (hBytes : byteOperand ts = some bs) :
    writeLine ap (.word n :: .comma :: ts) =
      if bs.length = len.toNat then some (encode (writeOf ap len bs)) else none := by
  simp only [writeLine, hLen, hBytes, payloadFits, beq_iff_eq, encode_writeOf]

/-- A byte operand begins with no word. -/
theorem byteOperand_word (n : List Char) (ts : List Token) : byteOperand (.word n :: ts) = none := rfl

/-- A WRITE line of the bytes alone. -/
theorem writeLine_of_bytes (ap : BitVec 1) {ts : List Token} {bs : List Byte} (hBytes : byteOperand ts = some bs) :
    writeLine ap ts =
      if bs.length = (BitVec.ofNat 32 bs.length).toNat then some (encode (writeOf ap (BitVec.ofNat 32 bs.length) bs))
      else none := by
  rw [writeLine]
  case x_1 =>
    rintro n rest rfl
    rw [byteOperand_word] at hBytes
    cases hBytes
  simp only [hBytes, payloadFits, beq_iff_eq, encode_writeOf]

/-- With fewer than 2^32 bytes the length is the number of bytes. -/
theorem writeLine_of_bytes_of_lt (ap : BitVec 1) {ts : List Token} {bs : List Byte}
    (hBytes : byteOperand ts = some bs) (hlt : bs.length < 2 ^ 32) :
    writeLine ap ts = some (encode (writeOf ap (BitVec.ofNat 32 bs.length) bs)) := by
  rw [writeLine_of_bytes ap hBytes, if_pos]
  rw [BitVec.toNat_ofNat, Nat.mod_eq_of_lt hlt]

theorem readLine_word (ap : BitVec 1) {n : List Char} {len : U32} (hLen : u32Operand n = some len) :
    readLine ap [.word n] = some (encode (readOf ap len)) := by
  rw [readLine, hLen, Option.map_some, encode_readOf]

/-! ### The request of each mnemonic -/

theorem requestOf_rdreg {x : List Char} {ix : BitVec 8} (hx : regOperand x = some ix) :
    requestOf .rdreg [.word x] = some ⟨commandWord 0#32 ix 0#1 (opcodeBits .rdreg), []⟩ := by
  rw [requestOf, hx, Option.map_some]

/-- Settles O8: each mnemonic by its own form of line. -/
theorem mnemonicsEncodeTheirRow : Obligations.MnemonicsEncodeTheirRow := by
  refine ⟨fun n size hSize => ?_, rfl, fun x ix hx => ⟨?_, ?_⟩, by decide,
    fun ts bs hBytes => ⟨fun n len hLen => ⟨?_, ?_⟩, fun hlt => ⟨?_, ?_⟩⟩, fun n len hLen => ⟨?_, ?_⟩⟩
  · rw [requestOf, hSize, Option.map_some]
  · rw [requestOf_rdreg hx, commandWord_rdreg]
  · rintro reg rfl
    exact requestOf_rdreg hx
  · exact writeLine_of_len 0#1 hLen hBytes
  · exact writeLine_of_len 1#1 hLen hBytes
  · exact writeLine_of_bytes_of_lt 0#1 hBytes hlt
  · exact writeLine_of_bytes_of_lt 1#1 hBytes hlt
  · exact readLine_word 0#1 hLen
  · exact readLine_word 1#1 hLen

theorem byteOperand_bytes (bs : List Byte) : byteOperand [.bytes bs] = some bs := rfl

/-- Settles O10: PUSH and OFFER are WRITE lines of their bytes alone, the others are their commands. -/
theorem pseudoInstructionsExpand : Obligations.PseudoInstructionsExpand := by
  refine ⟨fun ts bs hBytes hlt => ⟨?_, ?_⟩, fun ts => rfl, rfl, rfl, rfl⟩
  · rw [requestOf, hBytes]
    exact writeLine_of_bytes_of_lt 0#1 (byteOperand_bytes bs) hlt
  · rw [requestOf, hBytes]
    exact writeLine_of_bytes_of_lt 1#1 (byteOperand_bytes bs) hlt

/-! ### The port of a line -/

/-- A line whose port and mnemonic are known. -/
theorem assemble_of_names {line p m : List Char} {ts : List Token} {port : Port} {mn : Mnemonic}
    (hLine : lex .gap line = some (.word p :: .colon :: .word m :: ts)) (hPort : portNames.lookup p = some port)
    (hName : mnemonicNames.lookup m = some mn) :
    assemble line = if port = mnemonicPort mn then (requestOf mn ts).map (fun r => (mnemonicPort mn, r)) else none := by
  simp only [assemble, hLine, hPort, hName]
  by_cases h : mnemonicPort mn = port
  · subst h
    rfl
  · rw [if_neg h, if_neg (Ne.symm h)]

/-- Settles O9: the two tables of names and the port of each mnemonic are evaluated. -/
theorem linesNameTheirPortAndMnemonic : Obligations.LinesNameTheirPortAndMnemonic := by
  intro row hRow port hPort line ts hLine
  have hPortName : portNames.lookup port.1.toList = some port.2 := by
    clear hLine
    revert port
    decide
  have hMnemonic : mnemonicNames.lookup row.1.toList = some row.2.1 ∧ mnemonicPort row.2.1 = row.2.2 := by
    clear hLine
    revert row
    decide
  obtain ⟨hName, hBound⟩ := hMnemonic
  rw [assemble_of_names hLine hPortName hName, hBound]

/-! ### What the port decodes -/

/-- A request that its port decodes, or an RDREG of a reserved index. -/
def Request.Decodes (p : Port) (r : Request) : Prop := (∃ i, decode p r = .ok i) ∨ decode p r = .error .badReg

theorem decodes_encode {i : Instr} (h : i.wellFormed = true) : Request.Decodes i.port (encode i) :=
  .inl ⟨i, decodeInvertsEncode i h⟩

/-- RDREG's word decodes when its index is defined. -/
theorem decodes_rdreg (ix : BitVec 8) :
    Request.Decodes .ctl ⟨commandWord 0#32 ix 0#1 (opcodeBits .rdreg), []⟩ := by
  have hDecode := decode_eq_decodeOperands (p := .ctl) (op := .rdreg)
    (r := ⟨commandWord 0#32 ix 0#1 (opcodeBits .rdreg), []⟩) (by simp) rfl
    (by simp [reservedSet, usesAp, usesReg, usesArg])
  match hReg : Reg.ofIndex? ix with
  | none => exact .inr (hDecode.trans (by simp [decodeOperands, hReg]))
  | some reg => exact .inl ⟨.rdreg reg, hDecode.trans (by simp [decodeOperands, hReg])⟩

/-- A line that makes a request makes that of a command: a WRITE line, one with as many bytes as its length. -/
theorem writeLine_eq_some {ap : BitVec 1} {ts : List Token} {r : Request} (h : writeLine ap ts = some r) :
    ∃ len bs, bs.length = len.toNat ∧ r = encode (writeOf ap len bs) := by
  have hMake {len : U32} {bs : List Byte}
      (h : (if payloadFits len bs then
        some (Request.mk (commandWord len 0#8 ap (opcodeBits .write)) bs) else none) = some r) :
      ∃ len bs, bs.length = len.toNat ∧ r = encode (writeOf ap len bs) := by
    split at h
    next hFits =>
      cases h
      exact ⟨len, bs, beq_iff_eq.mp hFits, (encode_writeOf ap len bs).symm⟩
    next => cases h
  unfold writeLine at h
  split at h
  · split at h
    · exact hMake h
    · cases h
  · split at h
    · exact hMake h
    · cases h

theorem readLine_eq_some {ap : BitVec 1} {ts : List Token} {r : Request} (h : readLine ap ts = some r) :
    ∃ len, r = encode (readOf ap len) := by
  unfold readLine at h
  split at h
  · obtain ⟨len, -, rfl⟩ := Option.map_eq_some_iff.mp h
    exact ⟨len, (encode_readOf ap len).symm⟩
  · cases h

theorem plainLine_eq_some {i : Instr} {ts : List Token} {r : Request} (h : plainLine i ts = some r) :
    r = encode i := by
  unfold plainLine at h
  split at h
  · exact (Option.some.inj h).symm
  · cases h

theorem decodes_of_writeLine {ap : BitVec 1} {ts : List Token} {r : Request} (h : writeLine ap ts = some r) :
    Request.Decodes .prod r := by
  obtain ⟨len, bs, hLen, rfl⟩ := writeLine_eq_some h
  exact .inl ⟨_, decode_writeOf hLen⟩

theorem decodes_of_readLine {ap : BitVec 1} {ts : List Token} {r : Request} (h : readLine ap ts = some r) :
    Request.Decodes .cons r := by
  obtain ⟨len, rfl⟩ := readLine_eq_some h
  exact .inl ⟨_, decode_readOf ap len⟩

theorem decodes_of_plainLine {i : Instr} (hWf : i.wellFormed = true) {ts : List Token} {r : Request}
    (h : plainLine i ts = some r) : Request.Decodes i.port r := by
  rw [plainLine_eq_some h]
  exact decodes_encode hWf

/-- Every request the assembler makes decodes on its mnemonic's port, but for a reserved register index. -/
theorem decodes_of_requestOf {m : Mnemonic} {ts : List Token} {r : Request} (h : requestOf m ts = some r) :
    Request.Decodes (mnemonicPort m) r := by
  cases m with
  | create =>
    simp only [requestOf] at h
    split at h
    · obtain ⟨size, -, rfl⟩ := Option.map_eq_some_iff.mp h
      exact decodes_encode (i := .create size) rfl
    · cases h
  | destroy => exact decodes_of_plainLine (i := .destroy) rfl h
  | rdreg =>
    simp only [requestOf] at h
    split at h
    · obtain ⟨ix, -, rfl⟩ := Option.map_eq_some_iff.mp h
      exact decodes_rdreg ix
    · cases h
  | writeAll => exact decodes_of_writeLine h
  | writePart => exact decodes_of_writeLine h
  | readAll => exact decodes_of_readLine h
  | readPart => exact decodes_of_readLine h
  | push =>
    obtain ⟨bs, -, hLine⟩ := Option.bind_eq_some_iff.mp h
    exact decodes_of_writeLine hLine
  | offer =>
    obtain ⟨bs, -, hLine⟩ := Option.bind_eq_some_iff.mp h
    exact decodes_of_writeLine hLine
  | pop => exact decodes_of_readLine h
  | drain => exact decodes_of_plainLine (i := .readPart 0xFFFFFFFF#32) rfl h
  | status => exact decodes_of_plainLine (i := .rdreg .status) rfl h
  | level => exact decodes_of_plainLine (i := .rdreg .level) rfl h

/-- An accepted line has a mnemonic bound to its port, and its request is that mnemonic's. -/
theorem assemble_eq_some {line : List Char} {p : Port} {r : Request} (h : assemble line = some (p, r)) :
    ∃ mn ts, mnemonicPort mn = p ∧ requestOf mn ts = some r := by
  unfold assemble at h
  split at h
  · rename_i ts _
    split at h
    · rename_i port mn _ _
      split_ifs at h with hPort
      obtain ⟨r', hRequest, hEq⟩ := Option.map_eq_some_iff.mp h
      cases hEq
      exact ⟨mn, ts, hPort, hRequest⟩
    · cases h
  · cases h

/-- Settles O7: an accepted line is the request of a mnemonic of its port. -/
theorem assembledLinesDecode : Obligations.AssembledLinesDecode := by
  intro line p r h
  obtain ⟨mn, ts, rfl, hRequest⟩ := assemble_eq_some h
  exact decodes_of_requestOf hRequest

end Sys2Proof.Machine
